-- ==== Sys2Proof/Word.lean ====
section
/-! DEFINITION. The two word types of the LS8 engine. -/

namespace Sys2Proof

/-- A memory cell, a register, an operand byte or a data address: 8 bits unsigned (R10, R30). -/
abbrev Byte := BitVec 8

/-- The program counter: 9 bits unsigned, of which 0..256 are reachable (R14). -/
abbrev PcWord := BitVec 9

end Sys2Proof
end

