-- ==== Sys2Proof/Syntax.lean ====
section
/-! DEFINITION. The 27 instructions (R54), one constructor per row of opcode_table.json, in the table's order.
An operand is the whole operand byte (R53): a byte that names a register is checked by the instruction that uses
it (R74), so a value above 7 is an instruction whose meaning is to raise RegisterIndexFault (DESIGN CHOICE of form, log entry 5, safe). -/

namespace Sys2Proof

inductive Instr where
  /-- `HLT` (R135). -/
  | hlt
  /-- `RET` (R113). -/
  | ret
  /-- `PUSH r` (R110). -/
  | push (r : Byte)
  /-- `POP r` (R111). -/
  | pop (r : Byte)
  /-- `PRN r` (R133). -/
  | prn (r : Byte)
  /-- `PRA r` (R134). -/
  | pra (r : Byte)
  /-- `CALL r` (R112). -/
  | call (r : Byte)
  /-- `JMP r` (R120). -/
  | jmp (r : Byte)
  /-- `JEQ r` (R121). -/
  | jeq (r : Byte)
  /-- `JNE r` (R122). -/
  | jne (r : Byte)
  /-- `JGT r` (R123). -/
  | jgt (r : Byte)
  /-- `JLT r` (R124). -/
  | jlt (r : Byte)
  /-- `JLE r` (R126). -/
  | jle (r : Byte)
  /-- `JGE r` (R125). -/
  | jge (r : Byte)
  /-- `NOT a` (R96). -/
  | not (a : Byte)
  /-- `LDI r, v` (R130): `v` is an immediate, any byte. -/
  | ldi (r v : Byte)
  /-- `LD r, r2` (R131): `r` the destination, `r2` the address register. -/
  | ld (r r2 : Byte)
  /-- `ST r, r2` (R132): `r` the address register, `r2` the value register. -/
  | st (r r2 : Byte)
  /-- `ADD a, b` (R91). -/
  | add (a b : Byte)
  /-- `MUL a, b` (R92). -/
  | mul (a b : Byte)
  /-- `MOD a, b` (R99). -/
  | mod (a b : Byte)
  /-- `CMP a, b` (R100). -/
  | cmp (a b : Byte)
  /-- `AND a, b` (R93). -/
  | and (a b : Byte)
  /-- `OR a, b` (R94). -/
  | or (a b : Byte)
  /-- `XOR a, b` (R95). -/
  | xor (a b : Byte)
  /-- `SHL a, b` (R97). -/
  | shl (a b : Byte)
  /-- `SHR a, b` (R98). -/
  | shr (a b : Byte)
  deriving DecidableEq, Repr

end Sys2Proof
end

