-- ==== Sys2Proof/WellFormed.lean ====
section
/-! DEFINITION. When an instruction's operand bytes are legal: every byte it uses as a register index is in 0..7
(R53, R74). `v` of LDI is an immediate and is never checked (R130). -/

namespace Sys2Proof

/-- The operand bytes an instruction uses as register indices, in the order they are checked (R74). -/
def Instr.regOperands : Instr → List Byte
  | .hlt => []
  | .ret => []
  | .push r => [r]
  | .pop r => [r]
  | .prn r => [r]
  | .pra r => [r]
  | .call r => [r]
  | .jmp r => [r]
  | .jeq r => [r]
  | .jne r => [r]
  | .jgt r => [r]
  | .jlt r => [r]
  | .jle r => [r]
  | .jge r => [r]
  | .not a => [a]
  | .ldi r _ => [r]
  | .ld r r2 => [r, r2]
  | .st r r2 => [r, r2]
  | .add a b => [a, b]
  | .mul a b => [a, b]
  | .mod a b => [a, b]
  | .cmp a b => [a, b]
  | .and a b => [a, b]
  | .or a b => [a, b]
  | .xor a b => [a, b]
  | .shl a b => [a, b]
  | .shr a b => [a, b]

/-- Every register-index byte is in 0..7. -/
abbrev Instr.WellFormed (i : Instr) : Prop := ∀ o ∈ i.regOperands, o.toNat ≤ 7

end Sys2Proof
end

