-- ==== Sys2Proof/Decode.lean ====
section
/-! DEFINITION. The decoder and dispatch table (R51, R54, R72, R73), the encoder, and the table-word decoder the
host calls. The opcode bytes are parameter `OPC` at its default: four bytes are the source's, bits 7 to 4 of the
other 23 too, their low four bits are general knowledge (R54, decision D8; UNVERIFIED, log entry 3, unsafe). -/

namespace Sys2Proof

/-- `n`, the operand count: bits 7 to 6 of `ir` (R51). -/
def operandCount (ir : Byte) : Nat := (ir.extractLsb' 6 2).toNat

/-- `alu`: bit 5 of `ir`, one bit taken with a mask (R51, conflict C4). -/
def aluBit (ir : Byte) : Bool := ir.getLsbD 5

/-- `setspc`: bit 4 of `ir` (R51). -/
def setsPcBit (ir : Byte) : Bool := ir.getLsbD 4

def Opcode.hlt : Byte := 0b00000001#8
def Opcode.ret : Byte := 0b00010001#8
def Opcode.push : Byte := 0b01000101#8
def Opcode.pop : Byte := 0b01000110#8
def Opcode.prn : Byte := 0b01000111#8
def Opcode.pra : Byte := 0b01001000#8
def Opcode.call : Byte := 0b01010000#8
def Opcode.jmp : Byte := 0b01010100#8
def Opcode.jeq : Byte := 0b01010101#8
def Opcode.jne : Byte := 0b01010110#8
def Opcode.jgt : Byte := 0b01010111#8
def Opcode.jlt : Byte := 0b01011000#8
def Opcode.jle : Byte := 0b01011001#8
def Opcode.jge : Byte := 0b01011010#8
def Opcode.not : Byte := 0b01101001#8
def Opcode.ldi : Byte := 0b10000010#8
def Opcode.ld : Byte := 0b10000011#8
def Opcode.st : Byte := 0b10000100#8
def Opcode.add : Byte := 0b10100000#8
def Opcode.mul : Byte := 0b10100010#8
def Opcode.mod : Byte := 0b10100100#8
def Opcode.cmp : Byte := 0b10100111#8
def Opcode.and : Byte := 0b10101000#8
def Opcode.or : Byte := 0b10101010#8
def Opcode.xor : Byte := 0b10101011#8
def Opcode.shl : Byte := 0b10101100#8
def Opcode.shr : Byte := 0b10101101#8

/-- Why a byte sequence is no instruction. -/
inductive DecodeReject where
  /-- Bit 5 clear and not one of the 17 handler opcodes (R142). -/
  | unregistered
  /-- Bit 5 set and not one of the 10 ALU opcodes (R143). -/
  | unsupportedAlu
  /-- Fewer than the three bytes that fetch always reads (R71); `decodeBytes` only. -/
  | tooShort
  deriving DecidableEq, Repr

/-- One row of the dispatch table: an opcode and the instruction its operand latches make (R22). -/
abbrev OpcodeRow := Byte × (Byte → Byte → Instr)

/-- The ten ALU opcodes (R54, R90). `NOT` ignores `op2` (R96). -/
def aluTable : List OpcodeRow :=
  [(Opcode.not, fun a _ => .not a), (Opcode.add, .add), (Opcode.mul, .mul), (Opcode.mod, .mod), (Opcode.cmp, .cmp),
   (Opcode.and, .and), (Opcode.or, .or), (Opcode.xor, .xor), (Opcode.shl, .shl), (Opcode.shr, .shr)]

/-- The seventeen handler opcodes (R54, R73). -/
def handlerTable : List OpcodeRow :=
  [(Opcode.hlt, fun _ _ => .hlt), (Opcode.ret, fun _ _ => .ret), (Opcode.push, fun r _ => .push r),
   (Opcode.pop, fun r _ => .pop r), (Opcode.prn, fun r _ => .prn r), (Opcode.pra, fun r _ => .pra r),
   (Opcode.call, fun r _ => .call r), (Opcode.jmp, fun r _ => .jmp r), (Opcode.jeq, fun r _ => .jeq r),
   (Opcode.jne, fun r _ => .jne r), (Opcode.jgt, fun r _ => .jgt r), (Opcode.jlt, fun r _ => .jlt r),
   (Opcode.jle, fun r _ => .jle r), (Opcode.jge, fun r _ => .jge r), (Opcode.ldi, .ldi), (Opcode.ld, .ld),
   (Opcode.st, .st)]

/-- The dispatch key is the whole byte (R51; decision D9, UNVERIFIED, log entry 3, safe). -/
def lookupOpcode : List OpcodeRow → Byte → Byte → Byte → Option Instr
  | [], _, _, _ => none
  | (opcode, make) :: rows, ir, op1, op2 =>
    if ir = opcode then some (make op1 op2) else lookupOpcode rows ir op1 op2

/-- The instruction the three latches hold, or the fault dispatch raises: the ALU bit is tested first (R73). -/
def decode (ir op1 op2 : Byte) : Except DecodeReject Instr :=
  if aluBit ir then
    match lookupOpcode aluTable ir op1 op2 with
    | some i => .ok i
    | none => .error .unsupportedAlu
  else
    match lookupOpcode handlerTable ir op1 op2 with
    | some i => .ok i
    | none => .error .unregistered

/-- The instruction at the head of a byte sequence: its first three bytes are the latches (R71), and what follows
the instruction is ignored (R52). -/
def decodeBytes : List Byte → Except DecodeReject Instr
  | ir :: op1 :: op2 :: _ => decode ir op1 op2
  | _ => .error .tooShort

/-- The bytes of an instruction, the opcode byte first (R34, R50). -/
def encode : Instr → List Byte
  | .hlt => [Opcode.hlt]
  | .ret => [Opcode.ret]
  | .push r => [Opcode.push, r]
  | .pop r => [Opcode.pop, r]
  | .prn r => [Opcode.prn, r]
  | .pra r => [Opcode.pra, r]
  | .call r => [Opcode.call, r]
  | .jmp r => [Opcode.jmp, r]
  | .jeq r => [Opcode.jeq, r]
  | .jne r => [Opcode.jne, r]
  | .jgt r => [Opcode.jgt, r]
  | .jlt r => [Opcode.jlt, r]
  | .jle r => [Opcode.jle, r]
  | .jge r => [Opcode.jge, r]
  | .not a => [Opcode.not, a]
  | .ldi r v => [Opcode.ldi, r, v]
  | .ld r r2 => [Opcode.ld, r, r2]
  | .st r r2 => [Opcode.st, r, r2]
  | .add a b => [Opcode.add, a, b]
  | .mul a b => [Opcode.mul, a, b]
  | .mod a b => [Opcode.mod, a, b]
  | .cmp a b => [Opcode.cmp, a, b]
  | .and a b => [Opcode.and, a, b]
  | .or a b => [Opcode.or, a, b]
  | .xor a b => [Opcode.xor, a, b]
  | .shl a b => [Opcode.shl, a, b]
  | .shr a b => [Opcode.shr, a, b]

/-- An instruction's opcode byte: the first byte of its encoding. -/
def opcodeOf (i : Instr) : Byte := (encode i).headD 0x00#8

/-- Byte `k` of an instruction word whose first byte is its least significant one, the bits from `nbits` up read
as 0: the numbering of opcode_table.json. -/
def tableByte (nbits w k : Nat) : Byte := BitVec.ofNat 8 ((w % 2 ^ nbits) / 2 ^ (8 * k))

/-- The instruction the decoder reads from a word of opcode_table.json. -/
def decodeTableWord (nbits w : Nat) : Option Instr :=
  match decode (tableByte nbits w 0) (tableByte nbits w 1) (tableByte nbits w 2) with
  | .ok i => some i
  | .error _ => none

end Sys2Proof
end

