-- ==== Sys2Proof/Config.lean ====
section
/-! DEFINITION. The parameters of R4 that State.reset needs, at the defaults of the spec. `OPC`, the other
parameter of R4, is the opcode table of Decode.lean. -/

namespace Sys2Proof.Config

/-- `MEM_SIZE` (R4): the number of memory cells. -/
def memSize : Nat := 256

/-- `RESET_R` (R25, decision D2; UNVERIFIED, log entry 2, unsafe). -/
def resetR : Byte := 0x00#8

/-- `RESET_SP` (R26, decision D3; UNVERIFIED, log entry 2, unsafe). -/
def resetSp : Byte := 0xF4#8

/-- `RESET_FL`, flag E (R27, decision D4; UNVERIFIED, log entry 2, unsafe). -/
def resetE : Bool := false

/-- `RESET_FL`, flag L (R27, decision D4; UNVERIFIED, log entry 2, unsafe). -/
def resetL : Bool := false

/-- `RESET_FL`, flag G (R27, decision D4; UNVERIFIED, log entry 2, unsafe). -/
def resetG : Bool := false

/-- `BUDGET` (R4, R80, decision D19; log entry 4): unlimited by default. -/
def budget : Option Nat := none

/-- `RESET_PC` (R4, R23). -/
def resetPc : PcWord := 0#9

end Sys2Proof.Config
end

