-- ==== Sys2Proof/Machine/State.lean ====
section
/-! DEFINITION. The machine's state (10_state.md), plain data, and the reasons a step can stop. -/

namespace Sys2Proof.Machine

/-- The three comparison flags (R15): three separate bits, no packed byte (decision D24; log entry 18). -/
structure Flags where
  e : Bool
  l : Bool
  g : Bool
  deriving DecidableEq, Repr

/-- The kind of an output event (R21). -/
inductive EventKind where
  /-- `NUM`, from `PRN` (R133). -/
  | num
  /-- `CHR`, from `PRA` (R134). -/
  | chr
  deriving DecidableEq, Repr

/-- An event on the output port (R21). -/
structure Event where
  kind : EventKind
  value : Byte
  deriving DecidableEq, Repr

/-- The fault causes of R140. -/
inductive FaultCause where
  /-- Code 1, `AddressRangeFault` (R141). -/
  | addressRange
  /-- Code 2, `DecodeFault` (R142). -/
  | decode
  /-- Code 3, `UnsupportedAluFault` (R143). -/
  | unsupportedAlu
  /-- Code 4, `RegisterIndexFault` (R144). -/
  | registerIndex
  /-- Code 5, `ArithmeticFault` (R145). -/
  | arithmetic
  /-- Code 6, `BudgetFault`, only with a finite budget (R153). -/
  | budget
  deriving DecidableEq, Repr

/-- The fault record's triple `(cause, pc, byte)` (R17); `byte` is `none` where the spec says `absent` (R141, R153). -/
structure FaultRecord where
  cause : FaultCause
  pc : PcWord
  byte : Option Byte
  deriving DecidableEq, Repr

/-- The three run states (R18), a function of the state (`State.runState`). -/
inductive RunState where
  | running
  | halted
  | faulted
  deriving DecidableEq, Repr

/-- The fetch latches (R20): a value one cycle passes from fetch to dispatch, no state between cycles (DEDUCED,
log entry 6, safe). -/
structure Latches where
  ir : Byte
  op1 : Byte
  op2 : Byte
  deriving DecidableEq, Repr

/-- Memory as its cells that are not 0, by strictly rising address (`Memory.wf`, Ops.lean); a cell that is not
listed holds 0 (R24, R30; DESIGN CHOICE of form, log entry 7,
safe). -/
abbrev Memory := List Host.Cell

/-- Everything the spec gives the machine (10_state.md section 1). -/
structure State where
  /-- `R0` to `R7` (R10); register 7 is the stack pointer (R11). -/
  regs : Vector Byte 8
  /-- The program counter (R13, R14). -/
  pc : PcWord
  /-- The flags E, L, G (R15). -/
  flags : Flags
  /-- The halt flag (R16). -/
  halted : Bool
  /-- The fault record (R17). -/
  fault : Option FaultRecord
  /-- The output trace, oldest event first (R21, decision D17; DEDUCED, log entry 8, safe). -/
  out : List Event
  /-- The 256 memory cells (R30). -/
  mem : Memory
  /-- Cycles still allowed, `none` for unlimited (R80, R153; DESIGN CHOICE to hold it here, log entry 4, safe). -/
  budget : Option Nat
  deriving DecidableEq, Repr

/-- What the host sees in a snapshot (R156); a cell beyond 255 is absent. -/
structure Snapshot where
  pc : PcWord
  regs : Vector Byte 8
  flags : Flags
  byte0 : Option Byte
  byte1 : Option Byte
  byte2 : Option Byte
  deriving DecidableEq, Repr

/-- Why a step gives no next state: the run state is terminal (R77; DEDUCED, log entry 1, safe). No instruction raises one of these;
the faults of R140 are taken as next states. -/
inductive Fault where
  /-- Raised by `engineStep` when the run state is `Halted`: the engine takes no step (R77). Safe. -/
  | halted
  /-- Raised by `engineStep` when the run state is `Faulted`: the engine takes no step (R77). Safe. -/
  | faulted
  deriving DecidableEq, Repr

/-- Why the model declines. -/
inductive Refusal where
  /-- Raised by an arm of `exec` whose instruction has no meaning yet; no arm does. Safe. -/
  | notModelled (mnemonic : String)
  /-- Raised by `load` for an image of more than 256 bytes: the engine refuses it and execution never starts (R171). Safe. -/
  | imageTooLong
  deriving DecidableEq, Repr

/-- What a step or a meaning answers. -/
abbrev Result := Host.Outcome State Fault Refusal

/-- The machine right after reset (R23 to R28, R170). -/
def State.reset : State where
  regs := #v[Config.resetR, Config.resetR, Config.resetR, Config.resetR,
             Config.resetR, Config.resetR, Config.resetR, Config.resetSp]
  pc := Config.resetPc
  flags := { e := Config.resetE, l := Config.resetL, g := Config.resetG }
  halted := false
  fault := none
  out := []
  mem := []
  budget := Config.budget

end Sys2Proof.Machine
end

