-- ==== Sys2Proof/Machine/Ops.lean ====
section
/-! DEFINITION. The named operations over memory, registers, program counter, output port and fault record
(00_scope R7), and taking a fault (R146). There is no return from a fault beside it: the spec has none (R149). -/

namespace Sys2Proof.Machine

/-- `trunc8(v)` of R7: `v mod 256`. -/
def trunc8 (v : Nat) : Byte := BitVec.ofNat 8 v

/-- `zext_9(v)` of R7: an 8-bit value entering `pc`. -/
def zext9 (v : Byte) : PcWord := v.setWidth 9

/-- What a cell that is not listed reads as: memory resets to 0 (R24). -/
def Memory.unlisted : Byte := 0x00#8

/-- The byte in cell `a`. -/
def Memory.read : Memory → Nat → Byte
  | [], _ => Memory.unlisted
  | (b, v) :: m, a => if b = a then v else Memory.read m a

/-- Memory without an entry for cell `a`. -/
def Memory.remove : Memory → Nat → Memory
  | [], _ => []
  | (b, v) :: m, a => if b = a then Memory.remove m a else (b, v) :: Memory.remove m a

/-- Memory with an entry for cell `a`, which it does not list, put before the first higher address. -/
def Memory.insert : Memory → Nat → Byte → Memory
  | [], a, v => [(a, v)]
  | (b, w) :: m, a, v => if a < b then (a, v) :: (b, w) :: m else (b, w) :: Memory.insert m a v

/-- Memory with `v` in cell `a` and every other cell as it was, in canonical form. -/
def Memory.write (m : Memory) (a : Nat) (v : Byte) : Memory :=
  if v = Memory.unlisted then Memory.remove m a else Memory.insert (Memory.remove m a) a v

/-- The canonical form: addresses strictly rising, each below 256, and no entry that reads as an unlisted cell. -/
abbrev Memory.wf (m : Memory) : Prop :=
  m.Pairwise (fun c d => c.1 < d.1) ∧ ∀ c ∈ m, c.1 < Config.memSize ∧ c.2 ≠ Memory.unlisted

/-- The bytes of `bs` in the cells from `a` up. -/
def Memory.writeBytes : Memory → Nat → List Byte → Memory
  | m, _, [] => m
  | m, a, b :: bs => Memory.writeBytes (Memory.write m a b) (a + 1) bs

/-- `x[i]` of R7. -/
def State.readReg (s : State) (i : Fin 8) : Byte := s.regs[i]

/-- `x[i] <- v` of R7. -/
def State.writeReg (s : State) (i : Fin 8) (v : Byte) : State := { s with regs := s.regs.set i v }

/-- `SP_INDEX` (R4): register 7 is the stack pointer (R11). -/
abbrev spIndex : Fin 8 := 7

/-- `sp` of R7. -/
def State.sp (s : State) : Byte := s.readReg spIndex

/-- `sp <- trunc8(sp - 1)`: 0x00 becomes 0xFF, no fault (R114; decision D6, UNVERIFIED, log entry 13, unsafe). -/
def State.decSp (s : State) : State := s.writeReg spIndex (s.sp - 1#8)

/-- `sp <- trunc8(sp + 1)`: 0xFF becomes 0x00, no fault (R114; decision D6, UNVERIFIED, log entry 13, unsafe). -/
def State.incSp (s : State) : State := s.writeReg spIndex (s.sp + 1#8)

/-- `M[n]`, for the model's own statements and for fetch, whose addresses are not bytes. -/
def State.cell (s : State) (n : Nat) : Byte := Memory.read s.mem n

/-- `MemRead(addr, 1)` of R7: it changes nothing (R32). -/
def State.memRead (s : State) (addr : Byte) : Byte := s.cell addr.toNat

/-- `MemWrite(addr, 1, v)` of R7 (R32). -/
def State.memWrite (s : State) (addr v : Byte) : State := { s with mem := Memory.write s.mem addr.toNat v }

/-- `pc <- target` of R7. -/
def State.setPc (s : State) (target : PcWord) : State := { s with pc := target }

/-- The three flags written together (R100). -/
def State.setFlags (s : State) (f : Flags) : State := { s with flags := f }

/-- `halted <- true` (R135). -/
def State.setHalted (s : State) : State := { s with halted := true }

/-- `Out(kind, v)` of R7: append an event to the output trace. -/
def State.emit (s : State) (kind : EventKind) (v : Byte) : State :=
  { s with out := s.out ++ [{ kind := kind, value := v }] }

/-- Fault entry (R146): the record is written with the pc of the faulting cycle, and nothing else changes
(R147; decision D11, UNVERIFIED, log entry 17, unsafe). -/
def State.takeFault (s : State) (cause : FaultCause) (byte : Option Byte) : State :=
  { s with fault := some { cause := cause, pc := s.pc, byte := byte } }

/-- `raise <Fault>(pc, byte)` of R7: the cycle ends in the faulted state (R146). -/
def raiseFault (cause : FaultCause) (byte : Option Byte) (s : State) : Result := .next (s.takeFault cause byte)

/-- The fault's cause number (R140; decision D10, UNVERIFIED, log entry 17, safe). -/
def FaultCause.code : FaultCause → Nat
  | .addressRange => 1
  | .decode => 2
  | .unsupportedAlu => 3
  | .registerIndex => 4
  | .arithmetic => 5
  | .budget => 6

/-- The run state (R18). -/
def State.runState (s : State) : RunState :=
  if s.fault.isSome then .faulted else if s.halted then .halted else .running

/-- The engine's advance after the handler (R75): `pc <- pc + n + 1` when `setspc` = 0; when it is 1 the handler has
written `pc` and the engine leaves it. In 9 bits the sum does not wrap for a fetched instruction (R14;
decision D5, log entry 16; outside that, log entry 9). -/
def State.advance (s : State) (ir : Byte) : State :=
  if setsPcBit ir then s else s.setPc (s.pc + BitVec.ofNat 9 (operandCount ir + 1))

/-- A handler's end: the cycle goes on to the engine's advance (R75). -/
def finish (ir : Byte) (s : State) : Result := .next (s.advance ir)

/-- The count of completed cycles against the budget (R153): a cycle that faulted is not counted. -/
def State.countCycle (s : State) : State :=
  if s.fault.isSome then s else { s with budget := s.budget.map (· - 1) }

end Sys2Proof.Machine
end

