-- ==== Sys2Proof/Machine/Flags.lean ====
section
/-! DEFINITION. The one flag computation, CMP's (R100), and the conditions the six conditional jumps test
(R121 to R126). -/

namespace Sys2Proof.Machine

/-- The flags `CMP` leaves: exactly one of E, L, G, by the unsigned order (R100; decision D13, UNVERIFIED, log entry 18,
unsafe). -/
def compareFlags (x y : Byte) : Flags :=
  if x.toNat = y.toNat then { e := true, l := false, g := false }
  else if x.toNat < y.toNat then { e := false, l := true, g := false }
  else { e := false, l := false, g := true }

/-- `JEQ`: E (R121). -/
def condEq (f : Flags) : Bool := f.e

/-- `JNE`: not E, whatever L and G are (R122). -/
def condNe (f : Flags) : Bool := !f.e

/-- `JGT`: G (R123). -/
def condGt (f : Flags) : Bool := f.g

/-- `JLT`: L (R124). -/
def condLt (f : Flags) : Bool := f.l

/-- `JGE`: G or E, not the absence of L (R125). -/
def condGe (f : Flags) : Bool := f.g || f.e

/-- `JLE`: L or E (R126). -/
def condLe (f : Flags) : Bool := f.l || f.e

end Sys2Proof.Machine
end

