-- ==== Sys2Proof/Machine/Operands.lean ====
section
/-! DEFINITION. The operand forms: the register-index check `regidx` (R7, R53, R74) and the formats F1, F2RR and
F2RI (R50). F0 has no operand, and the immediate of F2RI is the operand byte itself (R53). -/

namespace Sys2Proof.Machine

/-- `regidx(o)` of R7: the register an operand byte names, or none when it is above 7. The upper five bits are not
masked off (R53, decision D7; UNVERIFIED, log entry 15, safe). -/
def regidx (o : Byte) : Option (Fin 8) :=
  if h : o.toNat < 8 then some ⟨o.toNat, h⟩ else none

/-- The operand byte `00000rrr` of register `r` (R53). -/
def regByte (r : Fin 8) : Byte := BitVec.ofNat 8 r.val

/-- A form with one register operand (F1, and F2RI's first byte): RegisterIndexFault above 7, before any effect (R74). -/
def withReg (ir o : Byte) (s : State) (k : Fin 8 → Result) : Result :=
  match regidx o with
  | some r => k r
  | none => raiseFault .registerIndex (some ir) s

/-- A form with two register operands (F2RR): `op1` is checked before `op2` (R74). -/
def withRegs (ir o1 o2 : Byte) (s : State) (k : Fin 8 → Fin 8 → Result) : Result :=
  withReg ir o1 s fun a => withReg ir o2 s fun b => k a b

end Sys2Proof.Machine
end

