-- ==== Sys2Proof/Machine/Alu.lean ====
section
/-! DEFINITION. The ten ALU instructions (41_alu.md). Results are computed on unbounded numbers and truncated once
(R90 b); both operands are read before the write (R90 a, decision D25;
UNVERIFIED, log entry 18, unsafe). -/

namespace Sys2Proof.Machine

/-- A two-operand ALU operation that writes `x[a]` (R90). -/
def aluBinary (ir : Byte) (f : Byte → Byte → Byte) (a b : Byte) (s : State) : Result :=
  withRegs ir a b s fun a b => finish ir (s.writeReg a (f (s.readReg a) (s.readReg b)))

def aluAdd (x y : Byte) : Byte := trunc8 (x.toNat + y.toNat)

def aluMul (x y : Byte) : Byte := trunc8 (x.toNat * y.toNat)

def aluAnd (x y : Byte) : Byte := x &&& y

def aluOr (x y : Byte) : Byte := x ||| y

def aluXor (x y : Byte) : Byte := x ^^^ y

/-- `255 - x` (R96). -/
def aluNot (x : Byte) : Byte := trunc8 (255 - x.toNat)

/-- The amount is the whole byte, not reduced modulo 8 (R97; decision D14, UNVERIFIED, log entry 18, unsafe). -/
def aluShl (x y : Byte) : Byte := trunc8 (x.toNat * 2 ^ y.toNat)

/-- Logical, by the whole byte (R98; decision D14, UNVERIFIED, log entry 18, unsafe). -/
def aluShr (x y : Byte) : Byte := trunc8 (x.toNat / 2 ^ y.toNat)

/-- The remainder for a divisor that is not 0 (R99). -/
def aluMod (x y : Byte) : Byte := trunc8 (x.toNat % y.toNat)

/-- `ADD a, b` (R91). -/
def execAdd (a b : Byte) (s : State) : Result := aluBinary Opcode.add aluAdd a b s

/-- `MUL a, b` (R92). -/
def execMul (a b : Byte) (s : State) : Result := aluBinary Opcode.mul aluMul a b s

/-- `AND a, b` (R93). -/
def execAnd (a b : Byte) (s : State) : Result := aluBinary Opcode.and aluAnd a b s

/-- `OR a, b` (R94). -/
def execOr (a b : Byte) (s : State) : Result := aluBinary Opcode.or aluOr a b s

/-- `XOR a, b` (R95). -/
def execXor (a b : Byte) (s : State) : Result := aluBinary Opcode.xor aluXor a b s

/-- `SHL a, b` (R97). -/
def execShl (a b : Byte) (s : State) : Result := aluBinary Opcode.shl aluShl a b s

/-- `SHR a, b` (R98). -/
def execShr (a b : Byte) (s : State) : Result := aluBinary Opcode.shr aluShr a b s

/-- `NOT a` (R96): one operand byte (decision D16; UNVERIFIED, log entry 3, unsafe). -/
def execNot (a : Byte) (s : State) : Result :=
  withReg Opcode.not a s fun a => finish Opcode.not (s.writeReg a (aluNot (s.readReg a)))

/-- `MOD a, b` (R99): a divisor of 0 raises ArithmeticFault before the write (R145). -/
def execMod (a b : Byte) (s : State) : Result :=
  withRegs Opcode.mod a b s fun a b =>
    if s.readReg b = 0x00#8 then raiseFault .arithmetic (some Opcode.mod) s
    else finish Opcode.mod (s.writeReg a (aluMod (s.readReg a) (s.readReg b)))

/-- `CMP a, b` (R100): flags only. -/
def execCmp (a b : Byte) (s : State) : Result :=
  withRegs Opcode.cmp a b s fun a b =>
    finish Opcode.cmp (s.setFlags (compareFlags (s.readReg a) (s.readReg b)))

end Sys2Proof.Machine
end

