-- ==== Sys2Proof/Machine/Data.lean ====
section
/-! DEFINITION. `LDI LD ST PRN PRA HLT` (44_data_io_halt.md). -/

namespace Sys2Proof.Machine

/-- `LDI r, v` (R130): `v` is never checked. -/
def execLdi (r v : Byte) (s : State) : Result :=
  withReg Opcode.ldi r s fun r => finish Opcode.ldi (s.writeReg r v)

/-- `LD r, r2` (R131). -/
def execLd (r r2 : Byte) (s : State) : Result :=
  withRegs Opcode.ld r r2 s fun r r2 => finish Opcode.ld (s.writeReg r (s.memRead (s.readReg r2)))

/-- `ST r, r2` (R132): the address register comes first. -/
def execSt (r r2 : Byte) (s : State) : Result :=
  withRegs Opcode.st r r2 s fun r r2 => finish Opcode.st (s.memWrite (s.readReg r) (s.readReg r2))

/-- `PRN r` (R133). -/
def execPrn (r : Byte) (s : State) : Result :=
  withReg Opcode.prn r s fun r => finish Opcode.prn (s.emit .num (s.readReg r))

/-- `PRA r` (R134). -/
def execPra (r : Byte) (s : State) : Result :=
  withReg Opcode.pra r s fun r => finish Opcode.pra (s.emit .chr (s.readReg r))

/-- `HLT` (R135): the cycle completes, so the advance still runs (R76; decision D18, UNVERIFIED, log entry 19,
unsafe). -/
def execHlt (s : State) : Result := finish Opcode.hlt s.setHalted

end Sys2Proof.Machine
end

