-- ==== Sys2Proof/Machine/Jumps.lean ====
section
/-! DEFINITION. `JMP` and the six conditional jumps (43_jumps.md). -/

namespace Sys2Proof.Machine

/-- What the conditional jumps share (R127): the register byte is checked whether or not the jump is taken; taken,
`pc` is the register's value; not taken, the handler itself writes `pc + 2`. -/
def jumpIf (ir : Byte) (taken : Bool) (r : Byte) (s : State) : Result :=
  withReg ir r s fun r => finish ir (s.setPc (if taken then zext9 (s.readReg r) else s.pc + 2#9))

/-- `JMP r` (R120). -/
def execJmp (r : Byte) (s : State) : Result :=
  withReg Opcode.jmp r s fun r => finish Opcode.jmp (s.setPc (zext9 (s.readReg r)))

/-- `JEQ r` (R121). -/
def execJeq (r : Byte) (s : State) : Result := jumpIf Opcode.jeq (condEq s.flags) r s

/-- `JNE r` (R122). -/
def execJne (r : Byte) (s : State) : Result := jumpIf Opcode.jne (condNe s.flags) r s

/-- `JGT r` (R123). -/
def execJgt (r : Byte) (s : State) : Result := jumpIf Opcode.jgt (condGt s.flags) r s

/-- `JLT r` (R124). -/
def execJlt (r : Byte) (s : State) : Result := jumpIf Opcode.jlt (condLt s.flags) r s

/-- `JLE r` (R126). -/
def execJle (r : Byte) (s : State) : Result := jumpIf Opcode.jle (condLe s.flags) r s

/-- `JGE r` (R125). -/
def execJge (r : Byte) (s : State) : Result := jumpIf Opcode.jge (condGe s.flags) r s

end Sys2Proof.Machine
end

