-- ==== Sys2Proof/Machine/Stack.lean ====
section
/-! DEFINITION. `PUSH POP CALL RET` (42_stack_subroutine.md). The steps run in the order written, each seeing the
writes before it (R8), which decides the `R7` forms (decision D26; UNVERIFIED, log entry 14, unsafe). -/

namespace Sys2Proof.Machine

/-- The return address `CALL` pushes (R112): `pc + 2`, which fits a byte for a fetched instruction (DEDUCED; log entry 9, safe). -/
def returnAddress (s : State) : Byte := trunc8 (s.pc.toNat + 2)

/-- `PUSH r` (R110): `x[r]` is read after the decrement. -/
def execPush (r : Byte) (s : State) : Result :=
  withReg Opcode.push r s fun r =>
    let s1 := s.decSp
    finish Opcode.push (s1.memWrite s1.sp (s1.readReg r))

/-- `POP r` (R111): the increment reads `x[7]` after the write of `x[r]`. -/
def execPop (r : Byte) (s : State) : Result :=
  withReg Opcode.pop r s fun r => finish Opcode.pop (s.writeReg r (s.memRead s.sp)).incSp

/-- `CALL r` (R112): `x[r]` is read after the decrement; the handler writes `pc`. -/
def execCall (r : Byte) (s : State) : Result :=
  withReg Opcode.call r s fun r =>
    let s1 := s.decSp
    finish Opcode.call ((s1.memWrite s1.sp (returnAddress s1)).setPc (zext9 (s1.readReg r)))

/-- `RET` (R113): the handler writes `pc`. -/
def execRet (s : State) : Result := finish Opcode.ret (s.setPc (zext9 (s.memRead s.sp))).incSp

end Sys2Proof.Machine
end

