-- ==== Sys2Proof/Machine/Dispatch.lean ====
section
/-! DEFINITION. One arm per instruction (R73). -/

namespace Sys2Proof.Machine

def exec (i : Instr) (s : State) : Host.Outcome State Fault Refusal :=
  match i with
  | .hlt => Sys2Proof.Machine.execHlt s
  | .ret => Sys2Proof.Machine.execRet s
  | .push r => Sys2Proof.Machine.execPush r s
  | .pop r => Sys2Proof.Machine.execPop r s
  | .prn r => Sys2Proof.Machine.execPrn r s
  | .pra r => Sys2Proof.Machine.execPra r s
  | .call r => Sys2Proof.Machine.execCall r s
  | .jmp r => Sys2Proof.Machine.execJmp r s
  | .jeq r => Sys2Proof.Machine.execJeq r s
  | .jne r => Sys2Proof.Machine.execJne r s
  | .jgt r => Sys2Proof.Machine.execJgt r s
  | .jlt r => Sys2Proof.Machine.execJlt r s
  | .jle r => Sys2Proof.Machine.execJle r s
  | .jge r => Sys2Proof.Machine.execJge r s
  | .not a => Sys2Proof.Machine.execNot a s
  | .ldi r v => Sys2Proof.Machine.execLdi r v s
  | .ld r r2 => Sys2Proof.Machine.execLd r r2 s
  | .st r r2 => Sys2Proof.Machine.execSt r r2 s
  | .add a b => Sys2Proof.Machine.execAdd a b s
  | .mul a b => Sys2Proof.Machine.execMul a b s
  | .mod a b => Sys2Proof.Machine.execMod a b s
  | .cmp a b => Sys2Proof.Machine.execCmp a b s
  | .and a b => Sys2Proof.Machine.execAnd a b s
  | .or a b => Sys2Proof.Machine.execOr a b s
  | .xor a b => Sys2Proof.Machine.execXor a b s
  | .shl a b => Sys2Proof.Machine.execShl a b s
  | .shr a b => Sys2Proof.Machine.execShr a b s

end Sys2Proof.Machine
end

