-- ==== Sys2Proof/Machine/Cycle.lean ====
section
/-! DEFINITION. The fetch-decode-execute cycle (40_engine_cycle.md): fetch, dispatch and the frame around `exec`. -/

namespace Sys2Proof.Machine

/-- The three bytes at `pc`, or none when one of the three addresses does not exist (R71, R33; decision D5,
UNVERIFIED, log entry 16, safe). -/
def fetch (s : State) : Option Latches :=
  if s.pc.toNat + 2 > 255 then none
  else some { ir := s.cell s.pc.toNat, op1 := s.cell (s.pc.toNat + 1), op2 := s.cell (s.pc.toNat + 2) }

/-- The byte AddressRangeFault records: `M[pc]` if that cell exists, else absent (R141). -/
def fetchFaultByte (s : State) : Option Byte :=
  if s.pc.toNat ≤ 255 then some (s.cell s.pc.toNat) else none

/-- The fault cause of a byte that is no registered opcode (R142, R143); fetch gives three bytes, so `tooShort` does
not arise in a cycle. -/
def DecodeReject.cause : DecodeReject → FaultCause
  | .unregistered => .decode
  | .unsupportedAlu => .unsupportedAlu
  | .tooShort => .decode

/-- What a cycle adds after the handler and the advance: a completed cycle counts against the budget (R153). -/
def afterExec : Result → Result
  | .next s => .next s.countCycle
  | .fault r => .fault r
  | .refused r => .refused r

/-- One cycle of a running engine (R70): the budget check (R153), fetch (R71), dispatch (R73) and, in the meaning,
the handler and the advance (R75). The halt check (R76) is `State.runState`. -/
def cycle (s : State) : Result :=
  if s.budget = some 0 then raiseFault .budget none s
  else
    match fetch s with
    | none => raiseFault .addressRange (fetchFaultByte s) s
    | some l =>
      match decode l.ir l.op1 l.op2 with
      | .error e => raiseFault (DecodeReject.cause e) (some l.ir) s
      | .ok i => afterExec (exec i s)

/-- One step: a cycle while `Running`; a terminal state takes no step (R77). -/
def engineStep (s : State) : Result :=
  match s.runState with
  | .running => cycle s
  | .halted => .fault .halted
  | .faulted => .fault .faulted

/-- `bs` in the cells from `pc` up, as many as exist (R30). -/
def placeAtPc (s : State) (bs : List Byte) : State :=
  { s with mem := Memory.writeBytes s.mem s.pc.toNat (bs.take (Config.memSize - s.pc.toNat)) }

end Sys2Proof.Machine
end

