-- ==== Sys2Proof/Machine/Step.lean ====
section
/-! DEFINITION. The step of the machine, and the placing of a table word where the step fetches. -/

namespace Sys2Proof.Machine

/-- One step of the engine (R70, R77). -/
def step (s : State) : Host.Outcome State Fault Refusal := engineStep s

/-- `s` with the word's three bytes in the cells the next step fetches from (R71). -/
def State.withFetchWord (s : State) (nbits w : Nat) : State :=
  placeAtPc s [tableByte nbits w 0, tableByte nbits w 1, tableByte nbits w 2]

end Sys2Proof.Machine
end

