-- ==== Sys2Proof/Machine/HostPort.lean ====
section
/-! DEFINITION. The host's moves (R178): reset and load, run, snapshot. Reading the output and the final state is
reading fields of State. -/

namespace Sys2Proof.Machine

/-- Reset, then load (R170, R171): byte `i` of the image in cell `i`; an image of more than 256 bytes is refused
(decision D20; UNVERIFIED, log entry 12, safe). The host may load only after reset and before the first cycle (R178), so the load starts from the reset
state (log entry 12, safe). -/
def load (image : List Byte) : Result :=
  if image.length > Config.memSize then .refused .imageTooLong
  else .next { State.reset with mem := Memory.writeBytes State.reset.mem 0 image }

/-- Run for at most `k` cycles (R178): cycles until the engine leaves `Running` or the number is used up. -/
def run : Nat → State → State
  | 0, s => s
  | k + 1, s =>
    match step s with
    | .next t => run k t
    | .fault _ => s
    | .refused _ => s

/-- Cell `n`, absent beyond 255 (R156). -/
def cellIfExists (s : State) (n : Nat) : Option Byte := if n < Config.memSize then some (s.cell n) else none

/-- The read-only snapshot (R156). -/
def snapshot (s : State) : Snapshot where
  pc := s.pc
  regs := s.regs
  flags := s.flags
  byte0 := cellIfExists s s.pc.toNat
  byte1 := cellIfExists s (s.pc.toNat + 1)
  byte2 := cellIfExists s (s.pc.toNat + 2)

end Sys2Proof.Machine
end

