-- ==== Sys2Proof/Safety.lean ====
section
/-! DEFINITION. The terms the statements use: what is kept between two states, when a cycle can fetch, and the
invariant of the machine. -/

namespace Sys2Proof.Machine

/-- Every register but those of `l` is kept. -/
def RegsKeptExcept (l : List (Fin 8)) (s t : State) : Prop := ∀ i, i ∉ l → t.readReg i = s.readReg i

/-- The three flags are kept. -/
def FlagsKept (s t : State) : Prop := t.flags = s.flags

/-- Every byte of memory reads as before. -/
def MemKept (s t : State) : Prop := ∀ n, t.cell n = s.cell n

/-- Every byte of memory but the one in cell `a` reads as before. -/
def MemKeptExcept (a : Byte) (s t : State) : Prop := ∀ n, n ≠ a.toNat → t.cell n = s.cell n

/-- The output trace is kept. -/
def OutKept (s t : State) : Prop := t.out = s.out

/-- The halt flag, the fault record and the budget are kept. -/
def ControlKept (s t : State) : Prop := t.halted = s.halted ∧ t.fault = s.fault ∧ t.budget = s.budget

/-- Only registers of `l` and the program counter may differ. -/
def OnlyRegsChange (l : List (Fin 8)) (s t : State) : Prop :=
  RegsKeptExcept l s t ∧ FlagsKept s t ∧ MemKept s t ∧ OutKept s t ∧ ControlKept s t

/-- Only registers of `l`, the byte in cell `a` and the program counter may differ. -/
def OnlyRegsAndCellChange (l : List (Fin 8)) (a : Byte) (s t : State) : Prop :=
  RegsKeptExcept l s t ∧ FlagsKept s t ∧ MemKeptExcept a s t ∧ OutKept s t ∧ ControlKept s t

/-- `t` is `s` after entering the fault `cause` with byte `byte`, and nothing else differs (R146). -/
def FaultEntered (cause : FaultCause) (byte : Option Byte) (s t : State) : Prop :=
  t = { s with fault := some { cause := cause, pc := s.pc, byte := byte } }

/-- A cycle that starts in `s` fetches an instruction: the engine runs, the budget is not used up (R153) and the
three addresses exist (R71). -/
def CanFetch (s : State) : Prop := s.runState = .running ∧ s.budget ≠ some 0 ∧ s.pc.toNat ≤ 253

/-- The registers an instruction may write, by the table of R12: its destination operand and, for the stack
instructions, register 7. -/
def writableRegs : Instr → List (Fin 8)
  | .hlt => []
  | .ret => [7]
  | .push _ => [7]
  | .pop r => (regidx r).toList ++ [7]
  | .prn _ => []
  | .pra _ => []
  | .call _ => [7]
  | .jmp _ => []
  | .jeq _ => []
  | .jne _ => []
  | .jgt _ => []
  | .jlt _ => []
  | .jle _ => []
  | .jge _ => []
  | .not a => (regidx a).toList
  | .ldi r _ => (regidx r).toList
  | .ld r _ => (regidx r).toList
  | .st _ _ => []
  | .add a _ => (regidx a).toList
  | .mul a _ => (regidx a).toList
  | .mod a _ => (regidx a).toList
  | .cmp _ _ => []
  | .and a _ => (regidx a).toList
  | .or a _ => (regidx a).toList
  | .xor a _ => (regidx a).toList
  | .shl a _ => (regidx a).toList
  | .shr a _ => (regidx a).toList

/-- At most one flag is 1: what a `CMP` can leave, and the reset state (R15, R127). -/
def FlagsLegal (f : Flags) : Prop :=
  (f.e = true ∧ f.l = false ∧ f.g = false) ∨ (f.e = false ∧ f.l = true ∧ f.g = false) ∨
  (f.e = false ∧ f.l = false ∧ f.g = true) ∨ (f.e = false ∧ f.l = false ∧ f.g = false)

/-- What every reachable state satisfies. -/
structure Inv (s : State) : Prop where
  /-- Memory is in canonical form: 256 cells at 0..255 (R30). -/
  memWf : Memory.wf s.mem
  /-- `pc` is in 0..256 (R14). -/
  pcRange : s.pc.toNat ≤ 256
  /-- The flags are one-hot or all 0 (R15). -/
  flagsLegal : FlagsLegal s.flags
  /-- The halt flag and a fault record are never both set (R18). -/
  notBoth : s.halted = true → s.fault = none
  /-- The fault record holds the `pc` that the faulting cycle left unchanged (R17, R146). -/
  faultPc : ∀ r, s.fault = some r → r.pc = s.pc
  /-- The recorded byte is absent only for BudgetFault and for a fetch from 256 (R140, R141, R153). -/
  faultByte : ∀ r, s.fault = some r → r.byte = none → r.cause = .budget ∨ r.pc = 256#9

end Sys2Proof.Machine
end

