-- ==== Sys2Proof/Certificates/Slice0/Obligations.lean ====
section
/-! DEFINITION. The statements for the provers, one `def Obligations.<Name> : Prop` each. A register operand is
written `regByte r` for `r : Fin 8`, which is every operand byte 0..7; a clause on `7 < o.toNat` covers every other
byte. -/

open Sys2Proof Sys2Proof.Machine

/-- `HLT` (rule R135): the halt flag is set, `pc` advances by 1 (the spec's decision D18), the run state becomes Halted
and stays; the prefetched bytes are ignored; at 0xFE or 0xFF the fetch faults instead of halting (decision D5). -/
def Obligations.HaltSetsFlagAndAdvances : Prop :=
  encode .hlt = [0x01#8] ∧
  (∀ op1 op2 : Byte, decode 0x01#8 op1 op2 = .ok .hlt) ∧
  (∀ s : State, ∃ t, exec .hlt s = .next t ∧ t.halted = true ∧ t.pc = s.pc + 1#9 ∧
    RegsKeptExcept [] s t ∧ FlagsKept s t ∧ MemKept s t ∧ OutKept s t ∧ t.fault = s.fault ∧ t.budget = s.budget) ∧
  (∀ s : State, CanFetch s → s.cell s.pc.toNat = 0x01#8 →
    ∃ t, step s = .next t ∧ t.runState = .halted ∧ t.pc.toNat = s.pc.toNat + 1 ∧ RegsKeptExcept [] s t ∧
      FlagsKept s t ∧ MemKept s t ∧ OutKept s t ∧ ∀ k, run k t = t) ∧
  (∀ s : State, s.runState = .running → s.budget ≠ some 0 → s.pc = 0xFE#9 ∨ s.pc = 0xFF#9 →
    s.cell s.pc.toNat = 0x01#8 →
    step s = .next { s with fault := some ⟨.addressRange, s.pc, some 0x01#8⟩ })

/-- `RET` (rule R113): `pc` takes the byte `sp` points at, `sp` goes up by 1 modulo 256 (decision D6), the prefetched
bytes are ignored. The low four bits of the opcode byte are the spec's general knowledge (decision D8, log entry 3). -/
def Obligations.ReturnPopsProgramCounter : Prop :=
  encode .ret = [0x11#8] ∧
  (∀ op1 op2 : Byte, decode 0x11#8 op1 op2 = .ok .ret) ∧
  (∀ s : State, ∃ t, exec .ret s = .next t ∧
    t.pc.toNat = (s.cell (s.readReg 7).toNat).toNat ∧
    (t.readReg 7).toNat = ((s.readReg 7).toNat + 1) % 256 ∧
    OnlyRegsChange [7] s t)

/-- `PUSH r` (rule R110): `sp` goes down by 1 modulo 256 (decision D6), then `x[r]`, read after the decrement
(decision D26 for `r = 7`), is stored at the new `sp`; every other byte of memory is kept. The RegisterIndexFault clause is the spec's decision D7 (rule R74).
The low four bits of the opcode byte are the spec's general knowledge (decision D8, log entry 3). -/
def Obligations.PushStoresBelowStackPointer : Prop :=
  (∀ o : Byte, encode (.push o) = [0x45#8, o]) ∧
  (∀ (s : State) (r : Fin 8), ∃ t, exec (.push (regByte r)) s = .next t ∧
    s.decSp.sp = s.readReg 7 - 1#8 ∧ t.readReg 7 = s.decSp.sp ∧
    t.cell s.decSp.sp.toNat = (if r = 7 then s.decSp.sp else s.readReg r) ∧
    OnlyRegsAndCellChange [7] s.decSp.sp s t ∧ t.pc = s.pc + 2#9) ∧
  (∀ (s : State) (o : Byte), 7 < o.toNat →
    exec (.push o) s = .next { s with fault := some ⟨.registerIndex, s.pc, some 0x45#8⟩ })

/-- `POP r` (rule R111): `x[r]` takes the byte `sp` points at, then `sp` goes up by 1 modulo 256 (decision D6); for
`r = 7` the increment reads the popped byte (decision D26). The RegisterIndexFault clause is the spec's decision D7 (rule R74).
The low four bits of the opcode byte are the spec's general knowledge (decision D8, log entry 3). -/
def Obligations.PopLoadsFromStackPointer : Prop :=
  (∀ o : Byte, encode (.pop o) = [0x46#8, o]) ∧
  (∀ (s : State) (r : Fin 8), ∃ t, exec (.pop (regByte r)) s = .next t ∧
    (r ≠ 7 → t.readReg r = s.cell (s.readReg 7).toNat ∧
      (t.readReg 7).toNat = ((s.readReg 7).toNat + 1) % 256) ∧
    (r = 7 → (t.readReg 7).toNat = ((s.cell (s.readReg 7).toNat).toNat + 1) % 256) ∧
    OnlyRegsChange [r, 7] s t ∧ t.pc = s.pc + 2#9) ∧
  (∀ (s : State) (o : Byte), 7 < o.toNat →
    exec (.pop o) s = .next { s with fault := some ⟨.registerIndex, s.pc, some 0x46#8⟩ })

/-- `PRN r` (rule R133): the event `(NUM, x[r])` is appended to the output (the spec's decision D17) and nothing but `pc`
changes; a register byte above 7 raises RegisterIndexFault with no event (decision D7). -/
def Obligations.PrintNumberEmitsEvent : Prop :=
  (∀ o : Byte, encode (.prn o) = [0x47#8, o]) ∧
  (∀ (s : State) (r : Fin 8), ∃ t, exec (.prn (regByte r)) s = .next t ∧
    t.out = s.out ++ [⟨.num, s.readReg r⟩] ∧ RegsKeptExcept [] s t ∧ FlagsKept s t ∧ MemKept s t ∧
    ControlKept s t ∧ t.pc = s.pc + 2#9) ∧
  (∀ (s : State) (o : Byte), 7 < o.toNat →
    exec (.prn o) s = .next { s with fault := some ⟨.registerIndex, s.pc, some 0x47#8⟩ })

/-- `PRA r` (rule R134): the event `(CHR, x[r])` is appended to the output (the spec's decision D17) and nothing but `pc`
changes; a register byte above 7 raises RegisterIndexFault with no event (decision D7). The low four bits of the opcode byte are the spec's general knowledge (decision D8, log entry 3). -/
def Obligations.PrintCharacterEmitsEvent : Prop :=
  (∀ o : Byte, encode (.pra o) = [0x48#8, o]) ∧
  (∀ (s : State) (r : Fin 8), ∃ t, exec (.pra (regByte r)) s = .next t ∧
    t.out = s.out ++ [⟨.chr, s.readReg r⟩] ∧ RegsKeptExcept [] s t ∧ FlagsKept s t ∧ MemKept s t ∧
    ControlKept s t ∧ t.pc = s.pc + 2#9) ∧
  (∀ (s : State) (o : Byte), 7 < o.toNat →
    exec (.pra o) s = .next { s with fault := some ⟨.registerIndex, s.pc, some 0x48#8⟩ })

/-- `CALL r` (rule R112): `sp` goes down by 1 modulo 256 (decision D6), the byte `pc + 2` is stored there, and `pc`
takes `x[r]`, read after the decrement (decision D26 for `r = 7`). The premise `pc ≤ 253` is the fetch condition, under
which `pc + 2` fits a byte (log entry 9). The RegisterIndexFault clause is the spec's decision D7 (rule R74).
The low four bits of the opcode byte are the spec's general knowledge (decision D8, log entry 3). -/
def Obligations.CallPushesReturnAddress : Prop :=
  (∀ o : Byte, encode (.call o) = [0x50#8, o]) ∧
  (∀ (s : State) (r : Fin 8), s.pc.toNat ≤ 253 → ∃ t, exec (.call (regByte r)) s = .next t ∧
    s.decSp.sp = s.readReg 7 - 1#8 ∧ t.readReg 7 = s.decSp.sp ∧
    (t.cell s.decSp.sp.toNat).toNat = s.pc.toNat + 2 ∧
    t.pc.toNat = (if r = 7 then s.decSp.sp else s.readReg r).toNat ∧
    OnlyRegsAndCellChange [7] s.decSp.sp s t) ∧
  (∀ (s : State) (o : Byte), 7 < o.toNat →
    exec (.call o) s = .next { s with fault := some ⟨.registerIndex, s.pc, some 0x50#8⟩ })

/-- `JMP r` (rule R120): `pc` takes `x[r]`, nothing else changes. The RegisterIndexFault clause is the spec's decision D7 (rule R74).
The low four bits of the opcode byte are the spec's general knowledge (decision D8, log entry 3). -/
def Obligations.JumpGoesToRegister : Prop :=
  (∀ o : Byte, encode (.jmp o) = [0x54#8, o]) ∧
  (∀ (s : State) (r : Fin 8), ∃ t, exec (.jmp (regByte r)) s = .next t ∧
    t.pc.toNat = (s.readReg r).toNat ∧ OnlyRegsChange [] s t) ∧
  (∀ (s : State) (o : Byte), 7 < o.toNat →
    exec (.jmp o) s = .next { s with fault := some ⟨.registerIndex, s.pc, some 0x54#8⟩ })

/-- `JEQ r` (rule R121): taken if and only if E is 1, whatever the other flags are; taken, `pc` takes `x[r]`, not
taken, `pc + 2`; nothing else changes. The RegisterIndexFault clause is the spec's decision D7 (rule R74).
The low four bits of the opcode byte are the spec's general knowledge (decision D8, log entry 3). -/
def Obligations.JumpIfEqualTestsE : Prop :=
  (∀ o : Byte, encode (.jeq o) = [0x55#8, o]) ∧
  (∀ (s : State) (r : Fin 8), ∃ t, exec (.jeq (regByte r)) s = .next t ∧
    (s.flags.e = true → t.pc.toNat = (s.readReg r).toNat) ∧ (¬(s.flags.e = true) → t.pc = s.pc + 2#9) ∧
    OnlyRegsChange [] s t) ∧
  (∀ (s : State) (o : Byte), 7 < o.toNat →
    exec (.jeq o) s = .next { s with fault := some ⟨.registerIndex, s.pc, some 0x55#8⟩ })

/-- `JNE r` (rule R122): taken if and only if E is 0, whatever the other flags are; taken, `pc` takes `x[r]`, not
taken, `pc + 2`; nothing else changes. The RegisterIndexFault clause is the spec's decision D7 (rule R74).
The low four bits of the opcode byte are the spec's general knowledge (decision D8, log entry 3). -/
def Obligations.JumpIfNotEqualTestsE : Prop :=
  (∀ o : Byte, encode (.jne o) = [0x56#8, o]) ∧
  (∀ (s : State) (r : Fin 8), ∃ t, exec (.jne (regByte r)) s = .next t ∧
    (s.flags.e = false → t.pc.toNat = (s.readReg r).toNat) ∧ (¬(s.flags.e = false) → t.pc = s.pc + 2#9) ∧
    OnlyRegsChange [] s t) ∧
  (∀ (s : State) (o : Byte), 7 < o.toNat →
    exec (.jne o) s = .next { s with fault := some ⟨.registerIndex, s.pc, some 0x56#8⟩ })

/-- `JGT r` (rule R123): taken if and only if G is 1 (an inference of the spec), whatever the other flags are; taken, `pc` takes `x[r]`, not
taken, `pc + 2`; nothing else changes. The RegisterIndexFault clause is the spec's decision D7 (rule R74).
The low four bits of the opcode byte are the spec's general knowledge (decision D8, log entry 3). -/
def Obligations.JumpIfGreaterTestsG : Prop :=
  (∀ o : Byte, encode (.jgt o) = [0x57#8, o]) ∧
  (∀ (s : State) (r : Fin 8), ∃ t, exec (.jgt (regByte r)) s = .next t ∧
    (s.flags.g = true → t.pc.toNat = (s.readReg r).toNat) ∧ (¬(s.flags.g = true) → t.pc = s.pc + 2#9) ∧
    OnlyRegsChange [] s t) ∧
  (∀ (s : State) (o : Byte), 7 < o.toNat →
    exec (.jgt o) s = .next { s with fault := some ⟨.registerIndex, s.pc, some 0x57#8⟩ })

/-- `JLT r` (rule R124): taken if and only if L is 1 (an inference of the spec), whatever the other flags are; taken, `pc` takes `x[r]`, not
taken, `pc + 2`; nothing else changes. The RegisterIndexFault clause is the spec's decision D7 (rule R74).
The low four bits of the opcode byte are the spec's general knowledge (decision D8, log entry 3). -/
def Obligations.JumpIfLessTestsL : Prop :=
  (∀ o : Byte, encode (.jlt o) = [0x58#8, o]) ∧
  (∀ (s : State) (r : Fin 8), ∃ t, exec (.jlt (regByte r)) s = .next t ∧
    (s.flags.l = true → t.pc.toNat = (s.readReg r).toNat) ∧ (¬(s.flags.l = true) → t.pc = s.pc + 2#9) ∧
    OnlyRegsChange [] s t) ∧
  (∀ (s : State) (o : Byte), 7 < o.toNat →
    exec (.jlt o) s = .next { s with fault := some ⟨.registerIndex, s.pc, some 0x58#8⟩ })

/-- `JLE r` (rule R126): taken if and only if L or E is 1, whatever the other flags are; taken, `pc` takes `x[r]`, not
taken, `pc + 2`; nothing else changes. The RegisterIndexFault clause is the spec's decision D7 (rule R74).
The low four bits of the opcode byte are the spec's general knowledge (decision D8, log entry 3). -/
def Obligations.JumpIfLessOrEqualTestsLOrE : Prop :=
  (∀ o : Byte, encode (.jle o) = [0x59#8, o]) ∧
  (∀ (s : State) (r : Fin 8), ∃ t, exec (.jle (regByte r)) s = .next t ∧
    (s.flags.l = true ∨ s.flags.e = true → t.pc.toNat = (s.readReg r).toNat) ∧ (¬(s.flags.l = true ∨ s.flags.e = true) → t.pc = s.pc + 2#9) ∧
    OnlyRegsChange [] s t) ∧
  (∀ (s : State) (o : Byte), 7 < o.toNat →
    exec (.jle o) s = .next { s with fault := some ⟨.registerIndex, s.pc, some 0x59#8⟩ })

/-- `JGE r` (rule R125): taken if and only if G or E is 1, whatever the other flags are; taken, `pc` takes `x[r]`, not
taken, `pc + 2`; nothing else changes. The RegisterIndexFault clause is the spec's decision D7 (rule R74).
The low four bits of the opcode byte are the spec's general knowledge (decision D8, log entry 3). -/
def Obligations.JumpIfGreaterOrEqualTestsGOrE : Prop :=
  (∀ o : Byte, encode (.jge o) = [0x5A#8, o]) ∧
  (∀ (s : State) (r : Fin 8), ∃ t, exec (.jge (regByte r)) s = .next t ∧
    (s.flags.g = true ∨ s.flags.e = true → t.pc.toNat = (s.readReg r).toNat) ∧ (¬(s.flags.g = true ∨ s.flags.e = true) → t.pc = s.pc + 2#9) ∧
    OnlyRegsChange [] s t) ∧
  (∀ (s : State) (o : Byte), 7 < o.toNat →
    exec (.jge o) s = .next { s with fault := some ⟨.registerIndex, s.pc, some 0x5A#8⟩ })

/-- `NOT a` (rule R96): `x[a]` becomes `255 - x[a]`; two bytes long (decision D16); the byte after the operand is
ignored. The RegisterIndexFault clause is the spec's decision D7 (rule R74).
The low four bits of the opcode byte are the spec's general knowledge (decision D8, log entry 3). -/
def Obligations.NotComplementsRegister : Prop :=
  (∀ o : Byte, encode (.not o) = [0x69#8, o]) ∧
  (∀ a op2 : Byte, decode 0x69#8 a op2 = .ok (.not a)) ∧
  (∀ (s : State) (a : Fin 8), ∃ t, exec (.not (regByte a)) s = .next t ∧
    (t.readReg a).toNat = 255 - (s.readReg a).toNat ∧
    (∀ k < 8, (t.readReg a).getLsbD k = !(s.readReg a).getLsbD k) ∧
    OnlyRegsChange [a] s t ∧ t.pc = s.pc + 2#9) ∧
  (∀ (s : State) (o : Byte), 7 < o.toNat →
    exec (.not o) s = .next { s with fault := some ⟨.registerIndex, s.pc, some 0x69#8⟩ })

/-- `LDI r, v` (rule R130): `x[r]` takes `v`, any byte, which is never checked; followed by `PRN r` it outputs `v`
(the output event is the spec's decision D17). The RegisterIndexFault clause is decision D7 (rule R74). -/
def Obligations.LoadImmediateWritesRegister : Prop :=
  (∀ r v : Byte, encode (.ldi r v) = [0x82#8, r, v]) ∧
  (∀ (s : State) (r : Fin 8) (v : Byte), ∃ t, exec (.ldi (regByte r) v) s = .next t ∧
    t.readReg r = v ∧ OnlyRegsChange [r] s t ∧ t.pc = s.pc + 3#9 ∧
    ∃ u, exec (.prn (regByte r)) t = .next u ∧ u.out = s.out ++ [⟨.num, v⟩]) ∧
  (∀ (s : State) (o v : Byte), 7 < o.toNat →
    exec (.ldi o v) s = .next { s with fault := some ⟨.registerIndex, s.pc, some 0x82#8⟩ })

/-- `LD r, r2` (rule R131): `x[r]` takes the byte in the cell `x[r2]` points at. The RegisterIndexFault clause is the spec's decision D7 (rule R74).
The low four bits of the opcode byte are the spec's general knowledge (decision D8, log entry 3). -/
def Obligations.LoadReadsThroughRegister : Prop :=
  (∀ a b : Byte, encode (.ld a b) = [0x83#8, a, b]) ∧
  (∀ (s : State) (a b : Fin 8), ∃ t, exec (.ld (regByte a) (regByte b)) s = .next t ∧
    t.readReg a = s.cell (s.readReg b).toNat ∧
    OnlyRegsChange [a] s t ∧ t.pc = s.pc + 3#9) ∧
  (∀ (s : State) (a b : Byte), 7 < a.toNat ∨ 7 < b.toNat →
    exec (.ld a b) s = .next { s with fault := some ⟨.registerIndex, s.pc, some 0x83#8⟩ })

/-- `ST r, r2` (rule R132): the cell `x[r]` points at takes `x[r2]`; every other byte and every register is kept.
The RegisterIndexFault clause is the spec's decision D7 (rule R74). The low four bits of the opcode byte are the spec's general knowledge (decision D8, log entry 3). -/
def Obligations.StoreWritesThroughRegister : Prop :=
  (∀ r r2 : Byte, encode (.st r r2) = [0x84#8, r, r2]) ∧
  (∀ (s : State) (r r2 : Fin 8), ∃ t, exec (.st (regByte r) (regByte r2)) s = .next t ∧
    t.cell (s.readReg r).toNat = s.readReg r2 ∧
    OnlyRegsAndCellChange [] (s.readReg r) s t ∧ t.pc = s.pc + 3#9) ∧
  (∀ (s : State) (a b : Byte), 7 < a.toNat ∨ 7 < b.toNat →
    exec (.st a b) s = .next { s with fault := some ⟨.registerIndex, s.pc, some 0x84#8⟩ })

/-- `ADD a, b` (rule R91): the sum modulo 256, no flag written. The RegisterIndexFault clause is the spec's decision D7
(rule R74). -/
def Obligations.AddWritesSumModulo256 : Prop :=
  (∀ a b : Byte, encode (.add a b) = [0xA0#8, a, b]) ∧
  (∀ (s : State) (a b : Fin 8), ∃ t, exec (.add (regByte a) (regByte b)) s = .next t ∧
    (t.readReg a).toNat = ((s.readReg a).toNat + (s.readReg b).toNat) % 256 ∧
    OnlyRegsChange [a] s t ∧ t.pc = s.pc + 3#9) ∧
  (∀ (s : State) (a b : Byte), 7 < a.toNat ∨ 7 < b.toNat →
    exec (.add a b) s = .next { s with fault := some ⟨.registerIndex, s.pc, some 0xA0#8⟩ })

/-- `MUL a, b` (rule R92): the product modulo 256, no flag written. The RegisterIndexFault clause is the spec's decision D7 (rule R74).
The low four bits of the opcode byte are the spec's general knowledge (decision D8, log entry 3). -/
def Obligations.MulWritesLowProductByte : Prop :=
  (∀ a b : Byte, encode (.mul a b) = [0xA2#8, a, b]) ∧
  (∀ (s : State) (a b : Fin 8), ∃ t, exec (.mul (regByte a) (regByte b)) s = .next t ∧
    (t.readReg a).toNat = ((s.readReg a).toNat * (s.readReg b).toNat) % 256 ∧
    OnlyRegsChange [a] s t ∧ t.pc = s.pc + 3#9) ∧
  (∀ (s : State) (a b : Byte), 7 < a.toNat ∨ 7 < b.toNat →
    exec (.mul a b) s = .next { s with fault := some ⟨.registerIndex, s.pc, some 0xA2#8⟩ })

/-- `MOD a, b` (rule R99): the remainder of the unsigned operands (decision D15); with a divisor of 0 ArithmeticFault,
and nothing else changes; a register byte above 7 has priority (decision D12). The RegisterIndexFault clause is the spec's decision D7 (rule R74).
The low four bits of the opcode byte are the spec's general knowledge (decision D8, log entry 3). -/
def Obligations.ModWritesRemainderOrFaults : Prop :=
  (∀ a b : Byte, encode (.mod a b) = [0xA4#8, a, b]) ∧
  (∀ (s : State) (a b : Fin 8), s.readReg b ≠ 0#8 → ∃ t, exec (.mod (regByte a) (regByte b)) s = .next t ∧
    (t.readReg a).toNat = (s.readReg a).toNat % (s.readReg b).toNat ∧
    OnlyRegsChange [a] s t ∧ t.pc = s.pc + 3#9) ∧
  (∀ (s : State) (a b : Fin 8), s.readReg b = 0#8 →
    exec (.mod (regByte a) (regByte b)) s = .next { s with fault := some ⟨.arithmetic, s.pc, some 0xA4#8⟩ }) ∧
  (∀ (s : State) (a b : Byte), 7 < a.toNat ∨ 7 < b.toNat →
    exec (.mod a b) s = .next { s with fault := some ⟨.registerIndex, s.pc, some 0xA4#8⟩ })

/-- `CMP a, b` (rule R100): E, L and G are each written, by the unsigned order (decision D13); no register changes.
The RegisterIndexFault clause is the spec's decision D7 (rule R74). The low four bits of the opcode byte are the spec's general knowledge (decision D8, log entry 3). -/
def Obligations.CompareSetsExactlyOneFlag : Prop :=
  (∀ a b : Byte, encode (.cmp a b) = [0xA7#8, a, b]) ∧
  (∀ (s : State) (a b : Fin 8), ∃ t, exec (.cmp (regByte a) (regByte b)) s = .next t ∧
    (t.flags.e = true ↔ (s.readReg a).toNat = (s.readReg b).toNat) ∧
    (t.flags.l = true ↔ (s.readReg a).toNat < (s.readReg b).toNat) ∧
    (t.flags.g = true ↔ (s.readReg b).toNat < (s.readReg a).toNat) ∧
    RegsKeptExcept [] s t ∧ MemKept s t ∧ OutKept s t ∧ ControlKept s t ∧ t.pc = s.pc + 3#9) ∧
  (∀ (s : State) (a b : Byte), 7 < a.toNat ∨ 7 < b.toNat →
    exec (.cmp a b) s = .next { s with fault := some ⟨.registerIndex, s.pc, some 0xA7#8⟩ })

/-- `AND a, b` (rule R93), bit by bit. The RegisterIndexFault clause is the spec's decision D7 (rule R74).
The low four bits of the opcode byte are the spec's general knowledge (decision D8, log entry 3). -/
def Obligations.AndWritesBitwiseAnd : Prop :=
  (∀ a b : Byte, encode (.and a b) = [0xA8#8, a, b]) ∧
  (∀ (s : State) (a b : Fin 8), ∃ t, exec (.and (regByte a) (regByte b)) s = .next t ∧
    (∀ k < 8, (t.readReg a).getLsbD k = ((s.readReg a).getLsbD k && (s.readReg b).getLsbD k)) ∧
    OnlyRegsChange [a] s t ∧ t.pc = s.pc + 3#9) ∧
  (∀ (s : State) (a b : Byte), 7 < a.toNat ∨ 7 < b.toNat →
    exec (.and a b) s = .next { s with fault := some ⟨.registerIndex, s.pc, some 0xA8#8⟩ })

/-- `OR a, b` (rule R94), bit by bit. The RegisterIndexFault clause is the spec's decision D7 (rule R74).
The low four bits of the opcode byte are the spec's general knowledge (decision D8, log entry 3). -/
def Obligations.OrWritesBitwiseOr : Prop :=
  (∀ a b : Byte, encode (.or a b) = [0xAA#8, a, b]) ∧
  (∀ (s : State) (a b : Fin 8), ∃ t, exec (.or (regByte a) (regByte b)) s = .next t ∧
    (∀ k < 8, (t.readReg a).getLsbD k = ((s.readReg a).getLsbD k || (s.readReg b).getLsbD k)) ∧
    OnlyRegsChange [a] s t ∧ t.pc = s.pc + 3#9) ∧
  (∀ (s : State) (a b : Byte), 7 < a.toNat ∨ 7 < b.toNat →
    exec (.or a b) s = .next { s with fault := some ⟨.registerIndex, s.pc, some 0xAA#8⟩ })

/-- `XOR a, b` (rule R95), bit by bit. The RegisterIndexFault clause is the spec's decision D7 (rule R74).
The low four bits of the opcode byte are the spec's general knowledge (decision D8, log entry 3). -/
def Obligations.XorWritesBitwiseXor : Prop :=
  (∀ a b : Byte, encode (.xor a b) = [0xAB#8, a, b]) ∧
  (∀ (s : State) (a b : Fin 8), ∃ t, exec (.xor (regByte a) (regByte b)) s = .next t ∧
    (∀ k < 8, (t.readReg a).getLsbD k = ((s.readReg a).getLsbD k ^^ (s.readReg b).getLsbD k)) ∧
    OnlyRegsChange [a] s t ∧ t.pc = s.pc + 3#9) ∧
  (∀ (s : State) (a b : Byte), 7 < a.toNat ∨ 7 < b.toNat →
    exec (.xor a b) s = .next { s with fault := some ⟨.registerIndex, s.pc, some 0xAB#8⟩ })

/-- `SHL a, b` (rule R97): the whole byte `x[b]` is the amount (decision D14), so 8 or more gives 0. The RegisterIndexFault clause is the spec's decision D7 (rule R74).
The low four bits of the opcode byte are the spec's general knowledge (decision D8, log entry 3). -/
def Obligations.ShlMultipliesByPowerOfTwo : Prop :=
  (∀ a b : Byte, encode (.shl a b) = [0xAC#8, a, b]) ∧
  (∀ (s : State) (a b : Fin 8), ∃ t, exec (.shl (regByte a) (regByte b)) s = .next t ∧
    (t.readReg a).toNat = ((s.readReg a).toNat * 2 ^ (s.readReg b).toNat) % 256 ∧
    OnlyRegsChange [a] s t ∧ t.pc = s.pc + 3#9) ∧
  (∀ (s : State) (a b : Byte), 7 < a.toNat ∨ 7 < b.toNat →
    exec (.shl a b) s = .next { s with fault := some ⟨.registerIndex, s.pc, some 0xAC#8⟩ })

/-- `SHR a, b` (rule R98): a logical shift by the whole byte `x[b]` (decision D14). The RegisterIndexFault clause is the spec's decision D7 (rule R74).
The low four bits of the opcode byte are the spec's general knowledge (decision D8, log entry 3). -/
def Obligations.ShrDividesByPowerOfTwo : Prop :=
  (∀ a b : Byte, encode (.shr a b) = [0xAD#8, a, b]) ∧
  (∀ (s : State) (a b : Fin 8), ∃ t, exec (.shr (regByte a) (regByte b)) s = .next t ∧
    (t.readReg a).toNat = (s.readReg a).toNat / 2 ^ (s.readReg b).toNat ∧
    OnlyRegsChange [a] s t ∧ t.pc = s.pc + 3#9) ∧
  (∀ (s : State) (a b : Byte), 7 < a.toNat ∨ 7 < b.toNat →
    exec (.shr a b) s = .next { s with fault := some ⟨.registerIndex, s.pc, some 0xAD#8⟩ })

/-- The decoder reads back every instruction, with every operand byte, from its encoding and whatever two bytes follow
(30_encoding.md; the opcode bytes are decision D8's). -/
def Obligations.DecodeOfEncodeIsTheInstruction : Prop :=
  ∀ (i : Instr) (x y : Byte), decodeBytes (encode i ++ [x, y]) = .ok i

/-- Three latches decode to `i` exactly when the encoding of `i` is their first `n + 1` bytes, `n` the operand count in
bits 7 to 6 of the first: each encoding has one meaning (30_encoding.md; the opcode bytes are decision D8's). -/
def Obligations.DecodeIffEncodeIsPrefix : Prop :=
  ∀ (ir op1 op2 : Byte) (i : Instr),
    decode ir op1 op2 = .ok i ↔ encode i = [ir, op1, op2].take (ir.toNat / 64 + 1)

/-- Words written out from the encodings of the spec, one or more per family, decode to what they stand for (the low four
bits of all but LDI, ADD, PRN, HLT are decision D8's). -/
def Obligations.SampleWordsDecode : Prop :=
  decodeBytes [0b10000010#8, 0b00000000#8, 0b00001000#8] = .ok (.ldi 0 8) ∧
  decodeBytes [0b10100000#8, 0b00000000#8, 0b00000001#8] = .ok (.add 0 1) ∧
  decodeBytes [0b01000111#8, 0b00000000#8, 0b00000001#8] = .ok (.prn 0) ∧
  decodeBytes [0b00000001#8, 0b00000000#8, 0b00000000#8] = .ok .hlt ∧
  decodeBytes [0b10100111#8, 0b00000010#8, 0b00000111#8] = .ok (.cmp 2 7) ∧
  decodeBytes [0b01101001#8, 0b00000011#8, 0b11111111#8] = .ok (.not 3) ∧
  decodeBytes [0b01000101#8, 0b00000111#8, 0b00000000#8] = .ok (.push 7) ∧
  decodeBytes [0b00010001#8, 0b11111111#8, 0b11111111#8] = .ok .ret ∧
  decodeBytes [0b01011010#8, 0b00000100#8, 0b00000000#8] = .ok (.jge 4) ∧
  decodeBytes [0b10000100#8, 0b00000010#8, 0b00000000#8] = .ok (.st 2 0)

/-- The bytes beyond an instruction's length are read and ignored (30_encoding.md rules R52 and R53). -/
def Obligations.UnusedOperandBytesIgnored : Prop :=
  ∀ ir op1 op2 x y : Byte,
    (ir.toNat / 64 = 0 → decode ir op1 op2 = decode ir x y) ∧
    (ir.toNat / 64 = 1 → decode ir op1 op2 = decode ir op1 y)

/-- Every byte is the opcode of an instruction or is rejected, by the kind bit 5 selects; of the 256 bytes 27 are
registered, 111 are decode faults and 118 unsupported ALU operations (30_encoding.md rule R56, decision D9; which bytes
is decision D8's). -/
def Obligations.EveryByteIsOpcodeOrFaults : Prop :=
  (∀ ir op1 op2 : Byte,
    (∃ i, decode ir op1 op2 = .ok i ∧ opcodeOf i = ir) ∨
    ((∀ i, opcodeOf i ≠ ir) ∧
      decode ir op1 op2 = .error (if ir.getLsbD 5 then .unsupportedAlu else .unregistered))) ∧
  (∀ op1 op2 : Byte,
    ((List.range 256).filter fun n => decide (decode (BitVec.ofNat 8 n) op1 op2 = .error .unregistered)).length = 111 ∧
    ((List.range 256).filter fun n => decide (decode (BitVec.ofNat 8 n) op1 op2 = .error .unsupportedAlu)).length = 118)

/-- When the three bytes at `pc` decode to `i`, a step is `exec i` followed by the count of the completed cycle, and with
no budget (the default of the spec) it is `exec i` alone. The budget as a field of State is the model's choice (log entry 4). -/
def Obligations.StepRunsDecodedInstruction : Prop :=
  ∀ (s : State) (i : Instr), CanFetch s →
    decode (s.cell s.pc.toNat) (s.cell (s.pc.toNat + 1)) (s.cell (s.pc.toNat + 2)) = .ok i →
    step s = afterExec (exec i s) ∧ (s.budget = none → step s = exec i s)

/-- `withFetchWord` places a word where the next step fetches it: the step runs the instruction the word decodes to, and
only the three cells at `pc` may differ. The host's interface, so no rule of the spec. -/
def Obligations.PlacedWordRuns : Prop :=
  ∀ (s : State) (nbits w : Nat) (i : Instr), CanFetch s → decodeTableWord nbits w = some i →
    step (s.withFetchWord nbits w) = afterExec (exec i (s.withFetchWord nbits w)) ∧
    { s.withFetchWord nbits w with mem := s.mem } = s ∧
    ∀ n, n < s.pc.toNat ∨ s.pc.toNat + 2 < n → (s.withFetchWord nbits w).cell n = s.cell n

/-- A cycle that starts with `pc ≥ 254` raises AddressRangeFault whatever the bytes are, with `M[pc]` if that cell exists,
and no other cycle raises it (rules R71 and R141; decision D5 of the spec). -/
def Obligations.FetchBeyondMemoryFaults : Prop :=
  (∀ s : State, s.runState = .running → s.budget ≠ some 0 → 254 ≤ s.pc.toNat →
    step s = .next { s with fault := some ⟨.addressRange, s.pc,
      if s.pc.toNat ≤ 255 then some (s.cell s.pc.toNat) else none⟩ }) ∧
  (∀ (s t : State) (r : FaultRecord), step s = .next t → t.fault = some r → r.cause = .addressRange →
    254 ≤ s.pc.toNat)

/-- DecodeFault (rule R142): raised in dispatch for a byte with bit 5 clear that is no instruction's opcode, with `pc` and
the byte recorded and nothing else changed, and for no other byte. Which bytes are opcodes is
left to `opcodeOf`, so the statement does not rest on the low four bits of decision D8 (log entry 3). That nothing else
changes is the spec's decision D11 (rules R146 and R147; log entries 1 and 17). -/
def Obligations.UnregisteredOpcodeFaults : Prop :=
  (∀ s : State, CanFetch s → (s.cell s.pc.toNat).getLsbD 5 = false →
    (∀ i, opcodeOf i ≠ s.cell s.pc.toNat) →
    step s = .next { s with fault := some ⟨.decode, s.pc, some (s.cell s.pc.toNat)⟩ } ∧
    ∀ t, step s = .next t → t.runState = .faulted) ∧
  (∀ (s t : State) (r : FaultRecord), step s = .next t → t.fault = some r → r.cause = .decode →
    (s.cell s.pc.toNat).getLsbD 5 = false ∧ ∀ i, opcodeOf i ≠ s.cell s.pc.toNat)

/-- UnsupportedAluFault (rule R143): raised in dispatch for a byte with bit 5 set that is no instruction's opcode, with
`pc` and the byte recorded and nothing else changed, and for no other byte. Which bytes are opcodes is
left to `opcodeOf`, so the statement does not rest on the low four bits of decision D8 (log entry 3). That nothing else
changes is the spec's decision D11 (rules R146 and R147; log entries 1 and 17). -/
def Obligations.UnsupportedAluOpcodeFaults : Prop :=
  (∀ s : State, CanFetch s → (s.cell s.pc.toNat).getLsbD 5 = true →
    (∀ i, opcodeOf i ≠ s.cell s.pc.toNat) →
    step s = .next { s with fault := some ⟨.unsupportedAlu, s.pc, some (s.cell s.pc.toNat)⟩ } ∧
    ∀ t, step s = .next t → t.runState = .faulted) ∧
  (∀ (s t : State) (r : FaultRecord), step s = .next t → t.fault = some r → r.cause = .unsupportedAlu →
    (s.cell s.pc.toNat).getLsbD 5 = true ∧ ∀ i, opcodeOf i ≠ s.cell s.pc.toNat)

/-- A register-index byte above 7 raises RegisterIndexFault in every instruction that uses one, before any effect and
before the divisor test, and no other operand does (rules R74 and R144; decision D7 of the spec). -/
def Obligations.IllFormedIndexFaults : Prop :=
  (∀ (i : Instr) (s : State), ¬ i.WellFormed →
    exec i s = .next { s with fault := some ⟨.registerIndex, s.pc, some (opcodeOf i)⟩ }) ∧
  (∀ (i : Instr) (s t : State) (r : FaultRecord), s.fault = none → exec i s = .next t → t.fault = some r →
    r.cause = .registerIndex → ¬ i.WellFormed)

/-- ArithmeticFault (rule R145): the only cause is `MOD a, b` with `x[b] = 0`; `x[a]` is not written, `pc` and the opcode
byte are recorded, and the run state is Faulted, not Halted. That nothing else changes is the spec's decision D11 (rules
R146 and R147; log entries 1 and 17); that both operand bytes are in 0..7 when it is raised is decisions D7 and D12 (log
entries 15 and 17). -/
def Obligations.ArithmeticFaultOnlyFromModByZero : Prop :=
  (∀ (i : Instr) (s t : State) (r : FaultRecord), s.fault = none → exec i s = .next t → t.fault = some r →
    (r.cause = .arithmetic ↔ ∃ a b : Fin 8, i = .mod (regByte a) (regByte b) ∧ s.readReg b = 0#8)) ∧
  (∀ (s : State) (a b : Fin 8), s.readReg b = 0#8 → ∃ t, exec (.mod (regByte a) (regByte b)) s = .next t ∧
    t = { s with fault := some ⟨.arithmetic, s.pc, some (opcodeOf (.mod (regByte a) (regByte b)))⟩ } ∧
    t.readReg a = s.readReg a ∧ t.halted = s.halted ∧ t.runState = .faulted)

/-- The cause a faulting step records is the first that applies in the order of rule R81 (decision D12 of the spec), after
the optional budget (rule R153, decision D19; a field of State by the model's choice, log entry 4). -/
def Obligations.FaultPriorityOrder : Prop :=
  ∀ (s t : State) (r : FaultRecord), step s = .next t → t.fault = some r →
    r.cause =
      if s.budget = some 0 then .budget
      else if 253 < s.pc.toNat then .addressRange
      else match decode (s.cell s.pc.toNat) (s.cell (s.pc.toNat + 1)) (s.cell (s.pc.toNat + 2)) with
        | .error .unsupportedAlu => .unsupportedAlu
        | .error _ => .decode
        | .ok i => if i.WellFormed then .arithmetic else .registerIndex

/-- Faults are precise (rules R146 and R147; decision D11 of the spec): a step that ends in a fault leaves the state before
the cycle plus the fault record, with the `pc` of that cycle. -/
def Obligations.FaultingStepChangesOnlyTheRecord : Prop :=
  ∀ (s t : State), step s = .next t → t.fault ≠ none →
    ∃ cause byte, FaultEntered cause byte s t ∧ t.runState = .faulted ∧
      ((cause = .budget ∧ byte = none) ∨
       (cause = .addressRange ∧ byte = if s.pc.toNat ≤ 255 then some (s.cell s.pc.toNat) else none) ∨
       (cause ≠ .budget ∧ cause ≠ .addressRange ∧ byte = some (s.cell s.pc.toNat)))

/-- Terminal states take no step (rule R77): in Halted and in Faulted there is no next state, and a run stays where it is;
the two are told apart. -/
def Obligations.TerminalStatesTakeNoStep : Prop :=
  (∀ s : State, s.runState = .halted → step s = .fault .halted) ∧
  (∀ s : State, s.runState = .faulted → step s = .fault .faulted) ∧
  (∀ s : State, s.runState ≠ .running → (∀ t, step s ≠ .next t) ∧ ∀ k, run k s = s)

/-- There is no stuck state: exactly the running engine has a next state, and no step is refused (rule R176, an inference
of the spec). -/
def Obligations.RunningEngineAlwaysSteps : Prop :=
  ∀ s : State, ((∃ t, step s = .next t) ↔ s.runState = .running) ∧ ∀ r, step s ≠ .refused r

/-- The halt flag (rule R16) starts false; only `HLT` writes it, to true; no instruction clears it or reads it. A step sets
it exactly when it fetches and runs a `HLT`: that a `HLT` with `pc` at 0xFE or above does not is the spec's decision D5 (log
entry 16), and that one with the budget used up does not is decision D19, with the budget held in State by the model's
choice (log entry 4). -/
def Obligations.HaltFlagOnlyFromHlt : Prop :=
  State.reset.halted = false ∧
  (∀ (i : Instr) (s t : State), exec i s = .next t → (t.halted = true ↔ s.halted = true ∨ i = .hlt)) ∧
  (∀ (s t : State), step s = .next t → (t.halted = true ↔
    CanFetch s ∧ decode (s.cell s.pc.toNat) (s.cell (s.pc.toNat + 1)) (s.cell (s.pc.toNat + 2)) = .ok .hlt)) ∧
  (∀ (i : Instr) (s t : State) (h : Bool), exec i s = .next t →
    ∃ u, exec i { s with halted := h } = .next u ∧ { u with halted := t.halted } = t) ∧
  (∀ s : State, s.halted = true → ∀ t, step s ≠ .next t)

/-- The flags (rule R15): a step changes them only when it runs a `CMP` on two registers, which leaves exactly one set; only
the conditional jumps read them. -/
def Obligations.FlagsOnlyFromCmp : Prop :=
  (∀ (s t : State), step s = .next t → t.flags ≠ s.flags →
    (∃ a b : Fin 8, decode (s.cell s.pc.toNat) (s.cell (s.pc.toNat + 1)) (s.cell (s.pc.toNat + 2)) =
      .ok (.cmp (regByte a) (regByte b))) ∧
    (t.flags = ⟨true, false, false⟩ ∨ t.flags = ⟨false, true, false⟩ ∨ t.flags = ⟨false, false, true⟩)) ∧
  (∀ (i : Instr) (s t : State) (f : Flags),
    (∀ r, i ≠ .jeq r ∧ i ≠ .jne r ∧ i ≠ .jgt r ∧ i ≠ .jlt r ∧ i ≠ .jle r ∧ i ≠ .jge r) → exec i s = .next t →
    ∃ u, exec i { s with flags := f } = .next u ∧ { u with flags := t.flags } = t)

/-- Memory frame of every instruction (20_memory.md section 1): a byte that an instruction changes is the one `PUSH` or
`CALL` stores to at the decremented `sp`, or the one `ST` stores to at `x[r]`. -/
def Obligations.MemoryOnlyFromPushCallStore : Prop :=
  ∀ (i : Instr) (s t : State) (n : Nat), exec i s = .next t → t.cell n ≠ s.cell n →
    (∃ r, (i = .push r ∨ i = .call r) ∧ n = s.decSp.sp.toNat) ∨
    (∃ r r2 a, i = .st r r2 ∧ regidx r = some a ∧ n = (s.readReg a).toNat)

/-- Register frame of every instruction: the registers that the table of 10_state.md section 2 does not list as written are
kept, for every operand byte. -/
def Obligations.RegistersOnlyByTable : Prop :=
  ∀ (i : Instr) (s t : State), exec i s = .next t → RegsKeptExcept (writableRegs i) s t

/-- The output trace (rule R21, decision D17 of the spec) only grows: a step appends the event of a `PRN` or `PRA`, or
leaves the trace alone. -/
def Obligations.OutputOnlyFromPrint : Prop :=
  ∀ (s t : State), step s = .next t →
    t.out = s.out ∨
    ∃ r : Fin 8,
      (decode (s.cell s.pc.toNat) (s.cell (s.pc.toNat + 1)) (s.cell (s.pc.toNat + 2)) = .ok (.prn (regByte r)) ∧
        t.out = s.out ++ [⟨.num, s.readReg r⟩]) ∨
      (decode (s.cell s.pc.toNat) (s.cell (s.pc.toNat + 1)) (s.cell (s.pc.toNat + 2)) = .ok (.pra (regByte r)) ∧
        t.out = s.out ++ [⟨.chr, s.readReg r⟩])

/-- A completed cycle of an instruction whose opcode has bit 4 clear advances `pc` by its operand count plus 1, without
wrap; one whose opcode has bit 4 set leaves an 8-bit address in `pc` (40_engine_cycle.md, Advance; decision D5). -/
def Obligations.ProgramCounterAdvance : Prop :=
  ∀ (s t : State), step s = .next t → t.fault = none →
    (setsPcBit (s.cell s.pc.toNat) = false →
      t.pc.toNat = s.pc.toNat + (s.cell s.pc.toNat).toNat / 64 + 1 ∧ t.pc.toNat ≤ 256) ∧
    (setsPcBit (s.cell s.pc.toNat) = true → t.pc.toNat ≤ 255)

/-- The optional budget (rule R153; held in State by the model's choice, log entry 4): unlimited stays unlimited, each
completed cycle takes one, a faulting cycle none, and at 0 the engine raises BudgetFault before fetch. -/
def Obligations.BudgetCountsCompletedCycles : Prop :=
  ∀ (s t : State), step s = .next t →
    (s.budget = none → t.budget = none) ∧
    (∀ k, s.budget = some (k + 1) → t.budget = if t.fault = none then some k else some (k + 1)) ∧
    (s.budget = some 0 → FaultEntered .budget none s t)

/-- With a budget of `k` every run leaves Running within `k + 1` steps, and if `k` cycles complete without halt or fault the
next step is BudgetFault (rule R153; the budget in State is the model's choice, log entry 4). -/
def Obligations.BudgetBoundsEveryRun : Prop :=
  ∀ (k : Nat) (s : State), s.budget = some k →
    (run (k + 1) s).runState ≠ .running ∧
    ((run k s).runState = .running → FaultEntered .budget none (run k s) (run (k + 1) s))

/-- From every state that meets the invariant a step gives a state that meets it: canonical memory of 256 cells, `pc` in
0..256, flags one-hot or all 0, never halted and faulted at once, and a fault record that holds the `pc` the cycle left
unchanged, its byte absent only for BudgetFault or at 256 (rules R14, R15, R17, R18, R30; inferences of the spec, with its
decisions D5 and D11, log entries 16 and 17). The canonical form of memory, a sorted list without zero entries, is the
model's choice for the 256 cells (log entry 7). -/
def Obligations.InvariantKeptByEveryStep : Prop :=
  ∀ s t : State, Inv s → step s = .next t → Inv t

/-- The invariant holds at reset: the flags are the spec's decision D4 (log entry 2), no fault is its decision D11, and the
canonical form of memory is the model's choice (log entry 7). -/
def Obligations.InvariantHoldsAtReset : Prop :=
  Inv State.reset

/-- Reset and load (rule R171; decision D20 of the spec): an image of at most 256 bytes lies from cell 0 up, every other
cell is 0, nothing else differs from reset, and the invariant holds, whose canonical form of memory is the model's choice
(log entry 7); a longer image is refused. -/
def Obligations.LoadPlacesImage : Prop :=
  ∀ image : List Byte,
    (image.length ≤ 256 → ∃ s, load image = .next s ∧ Inv s ∧ { s with mem := State.reset.mem } = State.reset ∧
      (∀ n (h : n < image.length), s.cell n = image[n]) ∧ ∀ n, image.length ≤ n → s.cell n = 0#8) ∧
    (256 < image.length → load image = .refused .imageTooLong)

/-- After reset `pc` is 0, the run state is Running and the halt flag is false (rule R23). -/
def Obligations.ResetProgramCounterAndRunState : Prop :=
  State.reset.pc = 0#9 ∧ State.reset.runState = .running ∧ State.reset.halted = false

/-- The rest of reset: `R0` to `R6` 0 (decision D2), `R7` 0xF4 (decision D3), the flags 0 (decision D4; log entry 2), no
fault (decision D11, log entry 17), no output (decision D17, log entry 8), no budget (decision D19; a field of State by the
model's choice, log entry 4), all of these the spec's own decisions; and memory 0 (rule R24). -/
def Obligations.ResetRegistersFlagsMemory : Prop :=
  (∀ r : Fin 8, State.reset.readReg r = if r = 7 then 0xF4#8 else 0#8) ∧
  State.reset.flags = ⟨false, false, false⟩ ∧ State.reset.fault = none ∧ State.reset.out = [] ∧
  State.reset.budget = none ∧ ∀ n, State.reset.cell n = 0#8

/-- `PUSH r` then `POP r2` gives `x[r2]` the value of `x[r]` and restores `sp`, for registers other than 7 and for every
`sp` (rule R111, an inference of the spec). -/
def Obligations.PushThenPopRoundTrip : Prop :=
  ∀ (s : State) (r r2 : Fin 8), r ≠ 7 → r2 ≠ 7 →
    ∃ t u, exec (.push (regByte r)) s = .next t ∧ exec (.pop (regByte r2)) t = .next u ∧
      u.readReg r2 = s.readReg r ∧ u.readReg 7 = s.readReg 7

/-- `CALL r` at `pc`, then `RET` in any state with the same `sp` and the same byte there, returns to `pc + 2` and restores
`sp` (rules R112 and R113). -/
def Obligations.CallThenReturnRoundTrip : Prop :=
  ∀ (s : State) (r : Fin 8), s.pc.toNat ≤ 253 →
    ∃ t, exec (.call (regByte r)) s = .next t ∧
      ∀ w : State, w.readReg 7 = t.readReg 7 → w.cell (t.readReg 7).toNat = t.cell (t.readReg 7).toNat →
        ∃ u, exec .ret w = .next u ∧ u.pc.toNat = s.pc.toNat + 2 ∧ u.readReg 7 = s.readReg 7

/-- A store over any byte of the next instruction is what the next cycle fetches, and a store over the instruction's own
bytes does not change its execution (rule R41, an inference of the spec). After an `ST` whose target is any cell, every
cell holds what the store left, and the next cycle fetches its opcode and both operand bytes from those cells; that it can
fetch only up to 253 is decision D5. The low four bits of the opcode byte are decision D8 (log entry 3). -/
def Obligations.StoreIsSeenByNextFetch : Prop :=
  ∀ (s : State) (r r2 : Fin 8), CanFetch s →
    s.cell s.pc.toNat = 0x84#8 → s.cell (s.pc.toNat + 1) = regByte r → s.cell (s.pc.toNat + 2) = regByte r2 →
    ∃ t, step s = .next t ∧ t.pc.toNat = s.pc.toNat + 3 ∧
      (∀ n, t.cell n = if n = (s.readReg r).toNat then s.readReg r2 else s.cell n) ∧
      (s.pc.toNat + 3 ≤ 253 →
        fetch t = some ⟨t.cell (s.pc.toNat + 3), t.cell (s.pc.toNat + 4), t.cell (s.pc.toNat + 5)⟩)

/-- The snapshot (rule R156): `pc`, the registers, the flags and the three bytes at `pc`: each cell that exists is shown,
and a cell beyond 255 is absent (an inference of the spec). Where a cycle can fetch they are the bytes it fetches. -/
def Obligations.SnapshotShowsFetchedBytes : Prop :=
  ∀ s : State, (snapshot s).pc = s.pc ∧ (snapshot s).regs = s.regs ∧ (snapshot s).flags = s.flags ∧
    (snapshot s).byte0 = (if s.pc.toNat ≤ 255 then some (s.cell s.pc.toNat) else none) ∧
    (snapshot s).byte1 = (if s.pc.toNat + 1 ≤ 255 then some (s.cell (s.pc.toNat + 1)) else none) ∧
    (snapshot s).byte2 = (if s.pc.toNat + 2 ≤ 255 then some (s.cell (s.pc.toNat + 2)) else none) ∧
    (∀ l, fetch s = some l →
      (snapshot s).byte0 = some l.ir ∧ (snapshot s).byte1 = some l.op1 ∧ (snapshot s).byte2 = some l.op2)
end

