-- ==== Sys2Proof/Laws/Decode.lean ====
section
/-! SUPPORT. The opcode byte of each instruction, and what a lookup in a dispatch table can give. -/

namespace Sys2Proof

@[simp] theorem opcodeOf_hlt : opcodeOf .hlt = Opcode.hlt := rfl
@[simp] theorem opcodeOf_ret : opcodeOf .ret = Opcode.ret := rfl
@[simp] theorem opcodeOf_push (x : Byte) : opcodeOf (.push x) = Opcode.push := rfl
@[simp] theorem opcodeOf_pop (x : Byte) : opcodeOf (.pop x) = Opcode.pop := rfl
@[simp] theorem opcodeOf_prn (x : Byte) : opcodeOf (.prn x) = Opcode.prn := rfl
@[simp] theorem opcodeOf_pra (x : Byte) : opcodeOf (.pra x) = Opcode.pra := rfl
@[simp] theorem opcodeOf_call (x : Byte) : opcodeOf (.call x) = Opcode.call := rfl
@[simp] theorem opcodeOf_jmp (x : Byte) : opcodeOf (.jmp x) = Opcode.jmp := rfl
@[simp] theorem opcodeOf_jeq (x : Byte) : opcodeOf (.jeq x) = Opcode.jeq := rfl
@[simp] theorem opcodeOf_jne (x : Byte) : opcodeOf (.jne x) = Opcode.jne := rfl
@[simp] theorem opcodeOf_jgt (x : Byte) : opcodeOf (.jgt x) = Opcode.jgt := rfl
@[simp] theorem opcodeOf_jlt (x : Byte) : opcodeOf (.jlt x) = Opcode.jlt := rfl
@[simp] theorem opcodeOf_jle (x : Byte) : opcodeOf (.jle x) = Opcode.jle := rfl
@[simp] theorem opcodeOf_jge (x : Byte) : opcodeOf (.jge x) = Opcode.jge := rfl
@[simp] theorem opcodeOf_not (x : Byte) : opcodeOf (.not x) = Opcode.not := rfl
@[simp] theorem opcodeOf_ldi (x y : Byte) : opcodeOf (.ldi x y) = Opcode.ldi := rfl
@[simp] theorem opcodeOf_ld (x y : Byte) : opcodeOf (.ld x y) = Opcode.ld := rfl
@[simp] theorem opcodeOf_st (x y : Byte) : opcodeOf (.st x y) = Opcode.st := rfl
@[simp] theorem opcodeOf_add (x y : Byte) : opcodeOf (.add x y) = Opcode.add := rfl
@[simp] theorem opcodeOf_mul (x y : Byte) : opcodeOf (.mul x y) = Opcode.mul := rfl
@[simp] theorem opcodeOf_mod (x y : Byte) : opcodeOf (.mod x y) = Opcode.mod := rfl
@[simp] theorem opcodeOf_cmp (x y : Byte) : opcodeOf (.cmp x y) = Opcode.cmp := rfl
@[simp] theorem opcodeOf_and (x y : Byte) : opcodeOf (.and x y) = Opcode.and := rfl
@[simp] theorem opcodeOf_or (x y : Byte) : opcodeOf (.or x y) = Opcode.or := rfl
@[simp] theorem opcodeOf_xor (x y : Byte) : opcodeOf (.xor x y) = Opcode.xor := rfl
@[simp] theorem opcodeOf_shl (x y : Byte) : opcodeOf (.shl x y) = Opcode.shl := rfl
@[simp] theorem opcodeOf_shr (x y : Byte) : opcodeOf (.shr x y) = Opcode.shr := rfl

/-- A lookup gives a row's instruction for the row's opcode. -/
theorem lookupOpcode_mem (rows : List OpcodeRow) (ir op1 op2 : Byte) (i : Instr)
    (h : lookupOpcode rows ir op1 op2 = some i) : ∃ row ∈ rows, row.1 = ir ∧ row.2 op1 op2 = i := by
  induction rows with
  | nil => cases h
  | cons row rows ih =>
    rw [lookupOpcode] at h
    split at h
    · exact ⟨row, by simp, by simp_all, by simpa using h⟩
    · obtain ⟨row', hmem, he⟩ := ih h
      exact ⟨row', List.mem_cons_of_mem _ hmem, he⟩

/-- A byte that is some row's opcode is found. -/
theorem lookupOpcode_isSome (rows : List OpcodeRow) (ir op1 op2 : Byte) (h : ∃ row ∈ rows, row.1 = ir) :
    ∃ i, lookupOpcode rows ir op1 op2 = some i := by
  induction rows with
  | nil => simp at h
  | cons row rows ih =>
    rw [lookupOpcode]
    split
    · exact ⟨_, rfl⟩
    · obtain ⟨row', hmem, he⟩ := h
      rcases List.mem_cons.1 hmem with rfl | hmem
      · simp_all
      · exact ih ⟨row', hmem, he⟩

end Sys2Proof
end

