-- ==== Sys2Proof/Laws/State.lean ====
section
/-! SUPPORT. One lemma per field per update of State. -/

namespace Sys2Proof.Machine

section Updates

variable (s : State) (i : Fin 8) (v w : Byte) (p : PcWord) (f : Flags) (k : EventKind) (c : FaultCause) (b : Option Byte)

@[simp] theorem writeReg_pc : (s.writeReg i v).pc = s.pc := rfl
@[simp] theorem writeReg_flags : (s.writeReg i v).flags = s.flags := rfl
@[simp] theorem writeReg_halted : (s.writeReg i v).halted = s.halted := rfl
@[simp] theorem writeReg_fault : (s.writeReg i v).fault = s.fault := rfl
@[simp] theorem writeReg_out : (s.writeReg i v).out = s.out := rfl
@[simp] theorem writeReg_mem : (s.writeReg i v).mem = s.mem := rfl
@[simp] theorem writeReg_budget : (s.writeReg i v).budget = s.budget := rfl

@[simp] theorem memWrite_regs : (s.memWrite v w).regs = s.regs := rfl
@[simp] theorem memWrite_pc : (s.memWrite v w).pc = s.pc := rfl
@[simp] theorem memWrite_flags : (s.memWrite v w).flags = s.flags := rfl
@[simp] theorem memWrite_halted : (s.memWrite v w).halted = s.halted := rfl
@[simp] theorem memWrite_fault : (s.memWrite v w).fault = s.fault := rfl
@[simp] theorem memWrite_out : (s.memWrite v w).out = s.out := rfl
@[simp] theorem memWrite_mem : (s.memWrite v w).mem = Memory.write s.mem v.toNat w := rfl
@[simp] theorem memWrite_budget : (s.memWrite v w).budget = s.budget := rfl

@[simp] theorem setPc_regs : (s.setPc p).regs = s.regs := rfl
@[simp] theorem setPc_pc : (s.setPc p).pc = p := rfl
@[simp] theorem setPc_flags : (s.setPc p).flags = s.flags := rfl
@[simp] theorem setPc_halted : (s.setPc p).halted = s.halted := rfl
@[simp] theorem setPc_fault : (s.setPc p).fault = s.fault := rfl
@[simp] theorem setPc_out : (s.setPc p).out = s.out := rfl
@[simp] theorem setPc_mem : (s.setPc p).mem = s.mem := rfl
@[simp] theorem setPc_budget : (s.setPc p).budget = s.budget := rfl

@[simp] theorem setFlags_regs : (s.setFlags f).regs = s.regs := rfl
@[simp] theorem setFlags_pc : (s.setFlags f).pc = s.pc := rfl
@[simp] theorem setFlags_flags : (s.setFlags f).flags = f := rfl
@[simp] theorem setFlags_halted : (s.setFlags f).halted = s.halted := rfl
@[simp] theorem setFlags_fault : (s.setFlags f).fault = s.fault := rfl
@[simp] theorem setFlags_out : (s.setFlags f).out = s.out := rfl
@[simp] theorem setFlags_mem : (s.setFlags f).mem = s.mem := rfl
@[simp] theorem setFlags_budget : (s.setFlags f).budget = s.budget := rfl

@[simp] theorem setHalted_regs : s.setHalted.regs = s.regs := rfl
@[simp] theorem setHalted_pc : s.setHalted.pc = s.pc := rfl
@[simp] theorem setHalted_flags : s.setHalted.flags = s.flags := rfl
@[simp] theorem setHalted_halted : s.setHalted.halted = true := rfl
@[simp] theorem setHalted_fault : s.setHalted.fault = s.fault := rfl
@[simp] theorem setHalted_out : s.setHalted.out = s.out := rfl
@[simp] theorem setHalted_mem : s.setHalted.mem = s.mem := rfl
@[simp] theorem setHalted_budget : s.setHalted.budget = s.budget := rfl

@[simp] theorem emit_regs : (s.emit k v).regs = s.regs := rfl
@[simp] theorem emit_pc : (s.emit k v).pc = s.pc := rfl
@[simp] theorem emit_flags : (s.emit k v).flags = s.flags := rfl
@[simp] theorem emit_halted : (s.emit k v).halted = s.halted := rfl
@[simp] theorem emit_fault : (s.emit k v).fault = s.fault := rfl
@[simp] theorem emit_out : (s.emit k v).out = s.out ++ [{ kind := k, value := v }] := rfl
@[simp] theorem emit_mem : (s.emit k v).mem = s.mem := rfl
@[simp] theorem emit_budget : (s.emit k v).budget = s.budget := rfl

@[simp] theorem takeFault_regs : (s.takeFault c b).regs = s.regs := rfl
@[simp] theorem takeFault_pc : (s.takeFault c b).pc = s.pc := rfl
@[simp] theorem takeFault_flags : (s.takeFault c b).flags = s.flags := rfl
@[simp] theorem takeFault_halted : (s.takeFault c b).halted = s.halted := rfl
@[simp] theorem takeFault_fault : (s.takeFault c b).fault = some { cause := c, pc := s.pc, byte := b } := rfl
@[simp] theorem takeFault_out : (s.takeFault c b).out = s.out := rfl
@[simp] theorem takeFault_mem : (s.takeFault c b).mem = s.mem := rfl
@[simp] theorem takeFault_budget : (s.takeFault c b).budget = s.budget := rfl

@[simp] theorem decSp_pc : s.decSp.pc = s.pc := rfl
@[simp] theorem decSp_flags : s.decSp.flags = s.flags := rfl
@[simp] theorem decSp_halted : s.decSp.halted = s.halted := rfl
@[simp] theorem decSp_fault : s.decSp.fault = s.fault := rfl
@[simp] theorem decSp_out : s.decSp.out = s.out := rfl
@[simp] theorem decSp_mem : s.decSp.mem = s.mem := rfl
@[simp] theorem decSp_budget : s.decSp.budget = s.budget := rfl

@[simp] theorem incSp_pc : s.incSp.pc = s.pc := rfl
@[simp] theorem incSp_flags : s.incSp.flags = s.flags := rfl
@[simp] theorem incSp_halted : s.incSp.halted = s.halted := rfl
@[simp] theorem incSp_fault : s.incSp.fault = s.fault := rfl
@[simp] theorem incSp_out : s.incSp.out = s.out := rfl
@[simp] theorem incSp_mem : s.incSp.mem = s.mem := rfl
@[simp] theorem incSp_budget : s.incSp.budget = s.budget := rfl

/-! Reading a register or a cell after an update. -/

@[simp] theorem writeReg_readReg (j : Fin 8) :
    (s.writeReg i v).readReg j = if j = i then v else s.readReg j := by
  by_cases h : j = i
  · subst h; simp [State.readReg, State.writeReg]
  · have : i.val ≠ j.val := fun e => h (Fin.ext e.symm)
    simp [State.readReg, State.writeReg, h, this]

@[simp] theorem memWrite_readReg (j : Fin 8) : (s.memWrite v w).readReg j = s.readReg j := rfl
@[simp] theorem setPc_readReg (j : Fin 8) : (s.setPc p).readReg j = s.readReg j := rfl
@[simp] theorem setFlags_readReg (j : Fin 8) : (s.setFlags f).readReg j = s.readReg j := rfl
@[simp] theorem setHalted_readReg (j : Fin 8) : s.setHalted.readReg j = s.readReg j := rfl
@[simp] theorem emit_readReg (j : Fin 8) : (s.emit k v).readReg j = s.readReg j := rfl
@[simp] theorem takeFault_readReg (j : Fin 8) : (s.takeFault c b).readReg j = s.readReg j := rfl

@[simp] theorem decSp_readReg (j : Fin 8) :
    s.decSp.readReg j = if j = spIndex then s.sp - 1#8 else s.readReg j := writeReg_readReg ..

@[simp] theorem incSp_readReg (j : Fin 8) :
    s.incSp.readReg j = if j = spIndex then s.sp + 1#8 else s.readReg j := writeReg_readReg ..

@[simp] theorem writeReg_cell (n : Nat) : (s.writeReg i v).cell n = s.cell n := rfl
@[simp] theorem setPc_cell (n : Nat) : (s.setPc p).cell n = s.cell n := rfl
@[simp] theorem setFlags_cell (n : Nat) : (s.setFlags f).cell n = s.cell n := rfl
@[simp] theorem setHalted_cell (n : Nat) : s.setHalted.cell n = s.cell n := rfl
@[simp] theorem emit_cell (n : Nat) : (s.emit k v).cell n = s.cell n := rfl
@[simp] theorem takeFault_cell (n : Nat) : (s.takeFault c b).cell n = s.cell n := rfl
@[simp] theorem decSp_cell (n : Nat) : s.decSp.cell n = s.cell n := rfl
@[simp] theorem incSp_cell (n : Nat) : s.incSp.cell n = s.cell n := rfl

end Updates

end Sys2Proof.Machine
end

