-- ==== Sys2Proof/Laws/Memory.lean ====
section
/-! SUPPORT. What a memory operation does to the reading of a cell, and that it keeps the canonical form. -/

namespace Sys2Proof.Machine

theorem read_remove (m : Memory) (a n : Nat) :
    Memory.read (Memory.remove m a) n = if n = a then Memory.unlisted else Memory.read m n := by
  induction m with
  | nil => simp [Memory.remove, Memory.read]
  | cons c m ih =>
    obtain ⟨b, v⟩ := c
    by_cases hb : b = a <;> by_cases hn : n = a <;> by_cases hbn : b = n <;>
      simp_all [Memory.remove, Memory.read]

theorem read_insert (m : Memory) (a n : Nat) (v : Byte) (h : ∀ c ∈ m, c.1 ≠ a) :
    Memory.read (Memory.insert m a v) n = if n = a then v else Memory.read m n := by
  induction m with
  | nil => simp [Memory.insert, Memory.read, eq_comm (a := a)]
  | cons c m ih =>
    obtain ⟨b, w⟩ := c
    have hb : b ≠ a := h (b, w) (by simp)
    have ih := ih fun c hc => h c (by simp [hc])
    by_cases hlt : a < b
    · simp only [Memory.insert, if_pos hlt, Memory.read, eq_comm (a := a)]
    · simp only [Memory.insert, if_neg hlt, Memory.read, ih]
      by_cases hn : n = a
      · subst hn; simp [hb]
      · simp [hn]

theorem remove_ne (m : Memory) (a : Nat) : ∀ c ∈ Memory.remove m a, c.1 ≠ a := by
  induction m with
  | nil => simp [Memory.remove]
  | cons c m ih =>
    by_cases h : c.1 = a
    · simpa [Memory.remove, h] using ih
    · intro d hd
      simp only [Memory.remove, h, if_false, List.mem_cons] at hd
      rcases hd with rfl | hd
      · exact h
      · exact ih d hd

theorem remove_subset (m : Memory) (a : Nat) : ∀ c ∈ Memory.remove m a, c ∈ m := by
  induction m with
  | nil => simp [Memory.remove]
  | cons c m ih =>
    intro d hd
    by_cases h : c.1 = a
    · simp only [Memory.remove, h, if_true] at hd
      exact List.mem_cons_of_mem _ (ih d hd)
    · simp only [Memory.remove, h, if_false, List.mem_cons] at hd
      rcases hd with rfl | hd
      · simp
      · exact List.mem_cons_of_mem _ (ih d hd)

/-- A write gives its cell the value and leaves every other cell alone, in every list. -/
theorem read_write (m : Memory) (a n : Nat) (v : Byte) :
    Memory.read (Memory.write m a v) n = if n = a then v else Memory.read m n := by
  by_cases hv : v = Memory.unlisted
  · by_cases hn : n = a <;> simp [Memory.write, hv, read_remove, hn]
  · rw [Memory.write, if_neg hv, read_insert _ _ _ _ (remove_ne m a), read_remove]
    by_cases hn : n = a <;> simp [hn]

theorem memWrite_cell (s : State) (a v : Byte) (n : Nat) :
    (s.memWrite a v).cell n = if n = a.toNat then v else s.cell n :=
  read_write ..

theorem remove_rising (m : Memory) (a : Nat) (h : m.Pairwise fun c d => c.1 < d.1) :
    (Memory.remove m a).Pairwise fun c d => c.1 < d.1 := by
  induction m with
  | nil => simp [Memory.remove]
  | cons c m ih =>
    rw [List.pairwise_cons] at h
    by_cases hc : c.1 = a
    · simpa [Memory.remove, hc] using ih h.2
    · simp only [Memory.remove, hc, if_false, List.pairwise_cons]
      exact ⟨fun d hd => h.1 d (remove_subset m a d hd), ih h.2⟩

theorem insert_mem (m : Memory) (a : Nat) (v : Byte) : ∀ c ∈ Memory.insert m a v, c = (a, v) ∨ c ∈ m := by
  induction m with
  | nil => simp [Memory.insert]
  | cons d m ih =>
    intro c hc
    by_cases h : a < d.1
    · simpa [Memory.insert, h] using hc
    · simp only [Memory.insert, h, if_false, List.mem_cons] at hc
      rcases hc with rfl | hc
      · simp
      · rcases ih c hc with rfl | hm
        · simp
        · simp [hm]

theorem insert_rising (m : Memory) (a : Nat) (v : Byte) (h : m.Pairwise fun c d => c.1 < d.1)
    (hne : ∀ c ∈ m, c.1 ≠ a) : (Memory.insert m a v).Pairwise fun c d => c.1 < d.1 := by
  induction m with
  | nil => simp [Memory.insert]
  | cons d m ih =>
    have hd := hne d (by simp)
    rw [List.pairwise_cons] at h
    by_cases hlt : a < d.1
    · simp only [Memory.insert, hlt, if_true, List.pairwise_cons]
      refine ⟨fun c hc => ?_, h⟩
      rcases List.mem_cons.1 hc with rfl | hc
      · exact hlt
      · exact hlt.trans (h.1 c hc)
    · simp only [Memory.insert, hlt, if_false, List.pairwise_cons]
      refine ⟨fun c hc => ?_, ih h.2 fun c hc => hne c (by simp [hc])⟩
      rcases insert_mem m a v c hc with rfl | hc
      · show d.1 < a
        omega
      · exact h.1 c hc

/-- A write keeps the canonical form. -/
theorem write_wf (m : Memory) (a : Nat) (v : Byte) (ha : a < 256) (h : Memory.wf m) :
    Memory.wf (Memory.write m a v) := by
  have hr : Memory.wf (Memory.remove m a) :=
    ⟨remove_rising m a h.1, fun c hc => h.2 c (remove_subset m a c hc)⟩
  by_cases hv : v = Memory.unlisted
  · rwa [Memory.write, if_pos hv]
  · rw [Memory.write, if_neg hv]
    refine ⟨insert_rising _ a v hr.1 (remove_ne m a), fun c hc => ?_⟩
    rcases insert_mem _ a v c hc with rfl | hc
    · exact ⟨ha, hv⟩
    · exact hr.2 c hc

/-- A run of writes that ends within memory keeps the canonical form. -/
theorem writeBytes_wf (bs : List Byte) (m : Memory) (a : Nat) (ha : a + bs.length ≤ 256) (h : Memory.wf m) :
    Memory.wf (Memory.writeBytes m a bs) := by
  induction bs generalizing m a with
  | nil => exact h
  | cons b bs ih =>
    simp only [List.length_cons] at ha
    exact ih _ _ (by omega) (write_wf m a b (by omega) h)

/-- What a run of writes leaves in a cell. -/
theorem read_writeBytes (bs : List Byte) (m : Memory) (a n : Nat) :
    Memory.read (Memory.writeBytes m a bs) n =
      if h : a ≤ n ∧ n < a + bs.length then bs[n - a]'(by omega) else Memory.read m n := by
  induction bs generalizing m a with
  | nil => simp [Memory.writeBytes]
  | cons b bs ih =>
    rw [Memory.writeBytes, ih, read_write]
    by_cases h1 : n = a
    · subst h1
      simp
    · by_cases h2 : a + 1 ≤ n ∧ n < a + 1 + bs.length
      · have h3 : a ≤ n ∧ n < a + (b :: bs).length := by simp; omega
        have h4 : n - a = (n - (a + 1)) + 1 := by omega
        simp only [dif_pos h2, dif_pos h3, h4, List.getElem_cons_succ]
      · have h3 : ¬(a ≤ n ∧ n < a + (b :: bs).length) := by simp; omega
        simp only [dif_neg h2, dif_neg h3, if_neg h1]

/-- Reset memory is in canonical form. -/
theorem reset_mem_wf : Memory.wf State.reset.mem := by decide

theorem memWrite_wf (s : State) (a v : Byte) (h : Memory.wf s.mem) : Memory.wf (s.memWrite a v).mem :=
  write_wf _ _ _ a.isLt h

end Sys2Proof.Machine
end

