-- ==== Sys2Proof/Laws/Ops.lean ====
section
/-! SUPPORT. What each shared operation can do, once: the provers cite these and do not unfold the operations. -/

namespace Sys2Proof.Machine

/-! ### Words -/

theorem trunc8_toNat (n : Nat) : (trunc8 n).toNat = n % 256 := by simp [trunc8]

theorem zext9_toNat (v : Byte) : (zext9 v).toNat = v.toNat := by
  have := v.isLt
  simp only [zext9, BitVec.toNat_setWidth]
  omega

/-! ### Operands -/

theorem regidx_regByte (r : Fin 8) : regidx (regByte r) = some r := by
  revert r; decide

theorem regByte_toNat (r : Fin 8) : (regByte r).toNat = r.val := by
  revert r; decide

theorem regidx_none (o : Byte) : regidx o = none ↔ 7 < o.toNat := by
  simp only [regidx]; split <;> simp <;> omega

theorem regidx_some (o : Byte) (r : Fin 8) : regidx o = some r ↔ o = regByte r := by
  constructor
  · intro h
    simp only [regidx] at h
    split at h
    · cases h; exact BitVec.eq_of_toNat_eq (by simp [regByte])
    · cases h
  · rintro rfl; exact regidx_regByte r

theorem withReg_regByte (ir : Byte) (r : Fin 8) (s : State) (k : Fin 8 → Result) :
    withReg ir (regByte r) s k = k r := by
  rw [withReg, regidx_regByte]

theorem withReg_high (ir o : Byte) (s : State) (k : Fin 8 → Result) (h : 7 < o.toNat) :
    withReg ir o s k = .next (s.takeFault .registerIndex (some ir)) := by
  rw [withReg, (regidx_none o).2 h]; rfl

/-- A register operand either names a register and the form goes on, or raises RegisterIndexFault. -/
theorem withReg_cases (ir o : Byte) (s : State) (k : Fin 8 → Result) :
    (∃ r, o = regByte r ∧ withReg ir o s k = k r) ∨
    (7 < o.toNat ∧ withReg ir o s k = .next (s.takeFault .registerIndex (some ir))) := by
  rcases h : regidx o with _ | r
  · exact .inr ⟨(regidx_none o).1 h, withReg_high ir o s k ((regidx_none o).1 h)⟩
  · obtain rfl := (regidx_some o r).1 h
    exact .inl ⟨r, rfl, withReg_regByte ir r s k⟩

theorem withRegs_regByte (ir : Byte) (a b : Fin 8) (s : State) (k : Fin 8 → Fin 8 → Result) :
    withRegs ir (regByte a) (regByte b) s k = k a b := by
  rw [withRegs, withReg_regByte, withReg_regByte]

/-- Two register operands either both name registers and the form goes on, or it raises RegisterIndexFault. -/
theorem withRegs_cases (ir o1 o2 : Byte) (s : State) (k : Fin 8 → Fin 8 → Result) :
    (∃ a b, o1 = regByte a ∧ o2 = regByte b ∧ withRegs ir o1 o2 s k = k a b) ∨
    ((7 < o1.toNat ∨ 7 < o2.toNat) ∧ withRegs ir o1 o2 s k = .next (s.takeFault .registerIndex (some ir))) := by
  rw [withRegs]
  rcases withReg_cases ir o1 s (fun a => withReg ir o2 s fun b => k a b) with ⟨a, ha, e⟩ | ⟨h, e⟩
  · rcases withReg_cases ir o2 s (fun b => k a b) with ⟨b, hb, e'⟩ | ⟨h, e'⟩
    · exact .inl ⟨a, b, ha, hb, e.trans e'⟩
    · exact .inr ⟨.inr h, e.trans e'⟩
  · exact .inr ⟨.inl h, e⟩

/-! ### The advance, per opcode (R75): length 1, 2 or 3, or the handler's own pc. -/

section Advance

variable (s : State)

theorem finish_hlt : finish Opcode.hlt s = .next (s.setPc (s.pc + 1#9)) := rfl
theorem finish_ret : finish Opcode.ret s = .next s := rfl
theorem finish_push : finish Opcode.push s = .next (s.setPc (s.pc + 2#9)) := rfl
theorem finish_pop : finish Opcode.pop s = .next (s.setPc (s.pc + 2#9)) := rfl
theorem finish_prn : finish Opcode.prn s = .next (s.setPc (s.pc + 2#9)) := rfl
theorem finish_pra : finish Opcode.pra s = .next (s.setPc (s.pc + 2#9)) := rfl
theorem finish_call : finish Opcode.call s = .next s := rfl
theorem finish_jmp : finish Opcode.jmp s = .next s := rfl
theorem finish_jeq : finish Opcode.jeq s = .next s := rfl
theorem finish_jne : finish Opcode.jne s = .next s := rfl
theorem finish_jgt : finish Opcode.jgt s = .next s := rfl
theorem finish_jlt : finish Opcode.jlt s = .next s := rfl
theorem finish_jle : finish Opcode.jle s = .next s := rfl
theorem finish_jge : finish Opcode.jge s = .next s := rfl
theorem finish_not : finish Opcode.not s = .next (s.setPc (s.pc + 2#9)) := rfl
theorem finish_ldi : finish Opcode.ldi s = .next (s.setPc (s.pc + 3#9)) := rfl
theorem finish_ld : finish Opcode.ld s = .next (s.setPc (s.pc + 3#9)) := rfl
theorem finish_st : finish Opcode.st s = .next (s.setPc (s.pc + 3#9)) := rfl
theorem finish_add : finish Opcode.add s = .next (s.setPc (s.pc + 3#9)) := rfl
theorem finish_mul : finish Opcode.mul s = .next (s.setPc (s.pc + 3#9)) := rfl
theorem finish_mod : finish Opcode.mod s = .next (s.setPc (s.pc + 3#9)) := rfl
theorem finish_cmp : finish Opcode.cmp s = .next (s.setPc (s.pc + 3#9)) := rfl
theorem finish_and : finish Opcode.and s = .next (s.setPc (s.pc + 3#9)) := rfl
theorem finish_or : finish Opcode.or s = .next (s.setPc (s.pc + 3#9)) := rfl
theorem finish_xor : finish Opcode.xor s = .next (s.setPc (s.pc + 3#9)) := rfl
theorem finish_shl : finish Opcode.shl s = .next (s.setPc (s.pc + 3#9)) := rfl
theorem finish_shr : finish Opcode.shr s = .next (s.setPc (s.pc + 3#9)) := rfl

end Advance

/-! ### Shared meanings -/

/-- A two-operand ALU operation either writes `x[a]` and advances by 3, or raises RegisterIndexFault. -/
theorem aluBinary_cases (ir : Byte) (f : Byte → Byte → Byte) (o1 o2 : Byte) (s : State) :
    (∃ a b, o1 = regByte a ∧ o2 = regByte b ∧
      aluBinary ir f o1 o2 s = finish ir (s.writeReg a (f (s.readReg a) (s.readReg b)))) ∨
    ((7 < o1.toNat ∨ 7 < o2.toNat) ∧ aluBinary ir f o1 o2 s = .next (s.takeFault .registerIndex (some ir))) :=
  withRegs_cases ..

/-- A conditional jump either writes `pc`, to the register's value or to `pc + 2`, or raises RegisterIndexFault. -/
theorem jumpIf_cases (ir : Byte) (taken : Bool) (o : Byte) (s : State) :
    (∃ r, o = regByte r ∧
      jumpIf ir taken o s = finish ir (s.setPc (if taken then zext9 (s.readReg r) else s.pc + 2#9))) ∨
    (7 < o.toNat ∧ jumpIf ir taken o s = .next (s.takeFault .registerIndex (some ir))) :=
  withReg_cases ..

theorem aluAdd_toNat (x y : Byte) : (aluAdd x y).toNat = (x.toNat + y.toNat) % 256 := trunc8_toNat _
theorem aluMul_toNat (x y : Byte) : (aluMul x y).toNat = (x.toNat * y.toNat) % 256 := trunc8_toNat _
theorem aluShl_toNat (x y : Byte) : (aluShl x y).toNat = (x.toNat * 2 ^ y.toNat) % 256 := trunc8_toNat _

theorem aluNot_toNat (x : Byte) : (aluNot x).toNat = 255 - x.toNat := by
  rw [aluNot, trunc8_toNat]; omega

theorem aluShr_toNat (x y : Byte) : (aluShr x y).toNat = x.toNat / 2 ^ y.toNat := by
  rw [aluShr, trunc8_toNat]
  exact Nat.mod_eq_of_lt (lt_of_le_of_lt (Nat.div_le_self ..) x.isLt)

theorem aluMod_toNat (x y : Byte) : (aluMod x y).toNat = x.toNat % y.toNat := by
  rw [aluMod, trunc8_toNat]
  exact Nat.mod_eq_of_lt (lt_of_le_of_lt (Nat.mod_le ..) x.isLt)

/-! ### The run state and the cycle -/

theorem runState_running (s : State) : s.runState = .running ↔ s.fault = none ∧ s.halted = false := by
  rcases h : s.fault with _ | r <;> cases hh : s.halted <;> simp [State.runState, h, hh]

theorem fetch_eq_none (s : State) : fetch s = none ↔ 253 < s.pc.toNat := by
  simp only [fetch]; split <;> simp <;> omega

theorem fetch_eq_some (s : State) (h : s.pc.toNat ≤ 253) :
    fetch s = some { ir := s.cell s.pc.toNat, op1 := s.cell (s.pc.toNat + 1), op2 := s.cell (s.pc.toNat + 2) } := by
  rw [fetch, if_neg (by omega)]

theorem countCycle_of_fault (s : State) (h : s.fault ≠ none) : s.countCycle = s := by
  rw [State.countCycle, if_pos (Option.isSome_iff_ne_none.2 h)]

theorem countCycle_of_completed (s : State) (h : s.fault = none) :
    s.countCycle = { s with budget := s.budget.map (· - 1) } := by
  rw [State.countCycle, h]; rfl

theorem countCycle_of_unlimited (s : State) (h : s.budget = none) : s.countCycle = s := by
  rw [State.countCycle, h]; split
  · rfl
  · cases s; simp_all

/-- What a cycle of a running engine can answer: a fault taken before dispatch, or what the decoded instruction
answers with the cycle counted. -/
theorem cycle_cases (s : State) :
    (s.budget = some 0 ∧ cycle s = .next (s.takeFault .budget none)) ∨
    (s.budget ≠ some 0 ∧ 253 < s.pc.toNat ∧ cycle s = .next (s.takeFault .addressRange (fetchFaultByte s))) ∨
    (s.budget ≠ some 0 ∧ s.pc.toNat ≤ 253 ∧
      ∃ e, decode (s.cell s.pc.toNat) (s.cell (s.pc.toNat + 1)) (s.cell (s.pc.toNat + 2)) = .error e ∧
        cycle s = .next (s.takeFault (DecodeReject.cause e) (some (s.cell s.pc.toNat)))) ∨
    (s.budget ≠ some 0 ∧ s.pc.toNat ≤ 253 ∧
      ∃ i, decode (s.cell s.pc.toNat) (s.cell (s.pc.toNat + 1)) (s.cell (s.pc.toNat + 2)) = .ok i ∧
        cycle s = afterExec (exec i s)) := by
  by_cases hb : s.budget = some 0
  · exact .inl ⟨hb, by rw [cycle, if_pos hb]; rfl⟩
  by_cases hp : 253 < s.pc.toNat
  · exact .inr (.inl ⟨hb, hp, by rw [cycle, if_neg hb, (fetch_eq_none s).2 hp]; rfl⟩)
  have hp : s.pc.toNat ≤ 253 := by omega
  have hc : cycle s = match decode (s.cell s.pc.toNat) (s.cell (s.pc.toNat + 1)) (s.cell (s.pc.toNat + 2)) with
      | .error e => raiseFault (DecodeReject.cause e) (some (s.cell s.pc.toNat)) s
      | .ok i => afterExec (exec i s) := by
    rw [cycle, if_neg hb, fetch_eq_some s hp] <;> rfl
  rcases hd : decode (s.cell s.pc.toNat) (s.cell (s.pc.toNat + 1)) (s.cell (s.pc.toNat + 2)) with e | i
  · exact .inr (.inr (.inl ⟨hb, hp, e, rfl, by rw [hc, hd]; rfl⟩))
  · exact .inr (.inr (.inr ⟨hb, hp, i, rfl, by rw [hc, hd]⟩))

/-- A step gives a next state only from a running state, and then it is the cycle's. -/
theorem engineStep_next (s t : State) (h : engineStep s = .next t) : s.runState = .running ∧ cycle s = .next t := by
  rw [engineStep] at h
  split at h
  · exact ⟨‹_›, h⟩
  · cases h
  · cases h

/-- `placeAtPc` changes memory only. -/
theorem placeAtPc_mem_only (s : State) (bs : List Byte) : placeAtPc s bs = { s with mem := (placeAtPc s bs).mem } := rfl

/-- Placing bytes at `pc` keeps the canonical form. -/
theorem placeAtPc_wf (s : State) (bs : List Byte) (h : Memory.wf s.mem) : Memory.wf (placeAtPc s bs).mem := by
  rcases Nat.lt_or_ge s.pc.toNat 256 with hp | hp
  · refine writeBytes_wf _ _ _ ?_ h
    simp only [List.length_take, Config.memSize]
    omega
  · have : bs.take (Config.memSize - s.pc.toNat) = [] := by simp [Config.memSize, hp]
    simpa [placeAtPc, this, Memory.writeBytes] using h

end Sys2Proof.Machine
end

