-- ==== Sys2Proof/Laws/PerInstr.lean ====
section
/-! SUPPORT. The family `Fields`: an instruction's opcode byte tells its length, its ALU membership and whether it
sets `pc` (R55). -/

namespace Sys2Proof.Laws.Fields

/-- The ten ALU instructions (R90). -/
def isAlu : Instr → Bool
  | .not _ => true
  | .add _ _ => true
  | .mul _ _ => true
  | .mod _ _ => true
  | .cmp _ _ => true
  | .and _ _ => true
  | .or _ _ => true
  | .xor _ _ => true
  | .shl _ _ => true
  | .shr _ _ => true
  | .hlt => false
  | .ret => false
  | .push _ => false
  | .pop _ => false
  | .prn _ => false
  | .pra _ => false
  | .call _ => false
  | .jmp _ => false
  | .jeq _ => false
  | .jne _ => false
  | .jgt _ => false
  | .jlt _ => false
  | .jle _ => false
  | .jge _ => false
  | .ldi _ _ => false
  | .ld _ _ => false
  | .st _ _ => false

/-- The jumps, call and return (R55 c). -/
def setsPc : Instr → Bool
  | .ret => true
  | .call _ => true
  | .jmp _ => true
  | .jeq _ => true
  | .jne _ => true
  | .jgt _ => true
  | .jlt _ => true
  | .jle _ => true
  | .jge _ => true
  | .hlt => false
  | .push _ => false
  | .pop _ => false
  | .prn _ => false
  | .pra _ => false
  | .not _ => false
  | .ldi _ _ => false
  | .ld _ _ => false
  | .st _ _ => false
  | .add _ _ => false
  | .mul _ _ => false
  | .mod _ _ => false
  | .cmp _ _ => false
  | .and _ _ => false
  | .or _ _ => false
  | .xor _ _ => false
  | .shl _ _ => false
  | .shr _ _ => false

/-- The opcode byte's fields agree with the instruction: its length is `n + 1`, bit 5 is ALU membership, bit 4 the
sets-PC property (R50, R55). -/
def Statement (i : Instr) : Prop :=
  (encode i).length = operandCount (opcodeOf i) + 1 ∧ aluBit (opcodeOf i) = isAlu i ∧ setsPcBit (opcodeOf i) = setsPc i

theorem of_opcode (i : Instr) (op : Byte) (ho : opcodeOf i = op)
    (h : (encode i).length = operandCount op + 1 ∧ aluBit op = isAlu i ∧ setsPcBit op = setsPc i) : Statement i :=
  ⟨ho ▸ h.1, ho ▸ h.2.1, ho ▸ h.2.2⟩

theorem hlt : Statement .hlt := of_opcode _ Opcode.hlt rfl ⟨rfl, rfl, rfl⟩
theorem ret : Statement .ret := of_opcode _ Opcode.ret rfl ⟨rfl, rfl, rfl⟩
theorem push (r : Byte) : Statement (.push r) := of_opcode _ Opcode.push rfl ⟨rfl, rfl, rfl⟩
theorem pop (r : Byte) : Statement (.pop r) := of_opcode _ Opcode.pop rfl ⟨rfl, rfl, rfl⟩
theorem prn (r : Byte) : Statement (.prn r) := of_opcode _ Opcode.prn rfl ⟨rfl, rfl, rfl⟩
theorem pra (r : Byte) : Statement (.pra r) := of_opcode _ Opcode.pra rfl ⟨rfl, rfl, rfl⟩
theorem call (r : Byte) : Statement (.call r) := of_opcode _ Opcode.call rfl ⟨rfl, rfl, rfl⟩
theorem jmp (r : Byte) : Statement (.jmp r) := of_opcode _ Opcode.jmp rfl ⟨rfl, rfl, rfl⟩
theorem jeq (r : Byte) : Statement (.jeq r) := of_opcode _ Opcode.jeq rfl ⟨rfl, rfl, rfl⟩
theorem jne (r : Byte) : Statement (.jne r) := of_opcode _ Opcode.jne rfl ⟨rfl, rfl, rfl⟩
theorem jgt (r : Byte) : Statement (.jgt r) := of_opcode _ Opcode.jgt rfl ⟨rfl, rfl, rfl⟩
theorem jlt (r : Byte) : Statement (.jlt r) := of_opcode _ Opcode.jlt rfl ⟨rfl, rfl, rfl⟩
theorem jle (r : Byte) : Statement (.jle r) := of_opcode _ Opcode.jle rfl ⟨rfl, rfl, rfl⟩
theorem jge (r : Byte) : Statement (.jge r) := of_opcode _ Opcode.jge rfl ⟨rfl, rfl, rfl⟩
theorem not (a : Byte) : Statement (.not a) := of_opcode _ Opcode.not rfl ⟨rfl, rfl, rfl⟩
theorem ldi (r v : Byte) : Statement (.ldi r v) := of_opcode _ Opcode.ldi rfl ⟨rfl, rfl, rfl⟩
theorem ld (r r2 : Byte) : Statement (.ld r r2) := of_opcode _ Opcode.ld rfl ⟨rfl, rfl, rfl⟩
theorem st (r r2 : Byte) : Statement (.st r r2) := of_opcode _ Opcode.st rfl ⟨rfl, rfl, rfl⟩
theorem add (a b : Byte) : Statement (.add a b) := of_opcode _ Opcode.add rfl ⟨rfl, rfl, rfl⟩
theorem mul (a b : Byte) : Statement (.mul a b) := of_opcode _ Opcode.mul rfl ⟨rfl, rfl, rfl⟩
theorem mod (a b : Byte) : Statement (.mod a b) := of_opcode _ Opcode.mod rfl ⟨rfl, rfl, rfl⟩
theorem cmp (a b : Byte) : Statement (.cmp a b) := of_opcode _ Opcode.cmp rfl ⟨rfl, rfl, rfl⟩
theorem and (a b : Byte) : Statement (.and a b) := of_opcode _ Opcode.and rfl ⟨rfl, rfl, rfl⟩
theorem or (a b : Byte) : Statement (.or a b) := of_opcode _ Opcode.or rfl ⟨rfl, rfl, rfl⟩
theorem xor (a b : Byte) : Statement (.xor a b) := of_opcode _ Opcode.xor rfl ⟨rfl, rfl, rfl⟩
theorem shl (a b : Byte) : Statement (.shl a b) := of_opcode _ Opcode.shl rfl ⟨rfl, rfl, rfl⟩
theorem shr (a b : Byte) : Statement (.shr a b) := of_opcode _ Opcode.shr rfl ⟨rfl, rfl, rfl⟩

end Sys2Proof.Laws.Fields
end

