-- ==== Sys2Proof/Tests/Slice0.lean ====
section
/-! SUPPORT. The model's own tests. Vectors A1 to Q7 are those of 95_test_vectors.md, whose names they keep; a test with
no vector named is computed by hand from the rule it cites. -/

namespace Sys2Proof.Tests

open Sys2Proof.Machine

/-- Reset, with `pc` as given, `bytes` placed there, and registers and cells as listed. -/
def at_ (pc : PcWord) (bytes : List Byte) (regs : List (Fin 8 × Byte)) (cells : List (Byte × Byte)) : State :=
  let s := placeAtPc { State.reset with pc := pc } bytes
  let s := regs.foldl (fun s r => s.writeReg r.1 r.2) s
  cells.foldl (fun s c => s.memWrite c.1 c.2) s

/-- The conventional place of the vectors: 0x10. -/
def at10 (bytes : List Byte) (regs : List (Fin 8 × Byte)) (cells : List (Byte × Byte)) : State :=
  at_ 0x10#9 bytes regs cells

/-- What one step leaves, seen through `f`. -/
def after {α : Type} (s : State) (f : State → α) : Option α :=
  match step s with
  | .next t => some (f t)
  | .fault _ => none
  | .refused _ => none

/-- What one meaning leaves, seen through `f`. -/
def execd {α : Type} (i : Instr) (s : State) (f : State → α) : Option α :=
  match exec i s with
  | .next t => some (f t)
  | .fault _ => none
  | .refused _ => none

/-! ### WellFormed: for each kind of check an ill-formed term it refuses -/

theorem test_ill_formed_push : ¬ (Instr.push 8).WellFormed ∧ (Instr.push 7).WellFormed := by decide

theorem test_ill_formed_pop : ¬ (Instr.pop 8).WellFormed ∧ (Instr.pop 7).WellFormed := by decide

theorem test_ill_formed_prn : ¬ (Instr.prn 8).WellFormed ∧ (Instr.prn 7).WellFormed := by decide

theorem test_ill_formed_pra : ¬ (Instr.pra 8).WellFormed ∧ (Instr.pra 7).WellFormed := by decide

theorem test_ill_formed_call : ¬ (Instr.call 8).WellFormed ∧ (Instr.call 7).WellFormed := by decide

theorem test_ill_formed_jmp : ¬ (Instr.jmp 8).WellFormed ∧ (Instr.jmp 7).WellFormed := by decide

theorem test_ill_formed_jeq : ¬ (Instr.jeq 8).WellFormed ∧ (Instr.jeq 7).WellFormed := by decide

theorem test_ill_formed_jne : ¬ (Instr.jne 8).WellFormed ∧ (Instr.jne 7).WellFormed := by decide

theorem test_ill_formed_jgt : ¬ (Instr.jgt 8).WellFormed ∧ (Instr.jgt 7).WellFormed := by decide

theorem test_ill_formed_jlt : ¬ (Instr.jlt 8).WellFormed ∧ (Instr.jlt 7).WellFormed := by decide

theorem test_ill_formed_jle : ¬ (Instr.jle 8).WellFormed ∧ (Instr.jle 7).WellFormed := by decide

theorem test_ill_formed_jge : ¬ (Instr.jge 8).WellFormed ∧ (Instr.jge 7).WellFormed := by decide

theorem test_ill_formed_not : ¬ (Instr.not 8).WellFormed ∧ (Instr.not 7).WellFormed := by decide

theorem test_ill_formed_ldi : ¬ (Instr.ldi 8 0).WellFormed ∧ (Instr.ldi 7 255).WellFormed := by decide

theorem test_ill_formed_ld :
    ¬ (Instr.ld 8 0).WellFormed ∧ ¬ (Instr.ld 0 8).WellFormed ∧ (Instr.ld 7 7).WellFormed := by decide

theorem test_ill_formed_st :
    ¬ (Instr.st 8 0).WellFormed ∧ ¬ (Instr.st 0 8).WellFormed ∧ (Instr.st 7 7).WellFormed := by decide

theorem test_ill_formed_add :
    ¬ (Instr.add 8 0).WellFormed ∧ ¬ (Instr.add 0 8).WellFormed ∧ (Instr.add 7 7).WellFormed := by decide

theorem test_ill_formed_mul :
    ¬ (Instr.mul 8 0).WellFormed ∧ ¬ (Instr.mul 0 8).WellFormed ∧ (Instr.mul 7 7).WellFormed := by decide

theorem test_ill_formed_mod :
    ¬ (Instr.mod 8 0).WellFormed ∧ ¬ (Instr.mod 0 8).WellFormed ∧ (Instr.mod 7 7).WellFormed := by decide

theorem test_ill_formed_cmp :
    ¬ (Instr.cmp 8 0).WellFormed ∧ ¬ (Instr.cmp 0 8).WellFormed ∧ (Instr.cmp 7 7).WellFormed := by decide

theorem test_ill_formed_and :
    ¬ (Instr.and 8 0).WellFormed ∧ ¬ (Instr.and 0 8).WellFormed ∧ (Instr.and 7 7).WellFormed := by decide

theorem test_ill_formed_or :
    ¬ (Instr.or 8 0).WellFormed ∧ ¬ (Instr.or 0 8).WellFormed ∧ (Instr.or 7 7).WellFormed := by decide

theorem test_ill_formed_xor :
    ¬ (Instr.xor 8 0).WellFormed ∧ ¬ (Instr.xor 0 8).WellFormed ∧ (Instr.xor 7 7).WellFormed := by decide

theorem test_ill_formed_shl :
    ¬ (Instr.shl 8 0).WellFormed ∧ ¬ (Instr.shl 0 8).WellFormed ∧ (Instr.shl 7 7).WellFormed := by decide

theorem test_ill_formed_shr :
    ¬ (Instr.shr 8 0).WellFormed ∧ ¬ (Instr.shr 0 8).WellFormed ∧ (Instr.shr 7 7).WellFormed := by decide

/-! ### Decoding: each constructor's word, written out from R54 -/

theorem test_decode_hlt : decode 0b00000001#8 0b11111111#8 0b11111111#8 = .ok .hlt := by decide

theorem test_decode_ret : decode 0b00010001#8 0b11111111#8 0b11111111#8 = .ok .ret := by decide

theorem test_decode_push : decode 0b01000101#8 0b00000101#8 0b11111111#8 = .ok (.push 5) := by decide

theorem test_decode_pop : decode 0b01000110#8 0b00000101#8 0b11111111#8 = .ok (.pop 5) := by decide

theorem test_decode_prn : decode 0b01000111#8 0b00000101#8 0b11111111#8 = .ok (.prn 5) := by decide

theorem test_decode_pra : decode 0b01001000#8 0b00000101#8 0b11111111#8 = .ok (.pra 5) := by decide

theorem test_decode_call : decode 0b01010000#8 0b00000101#8 0b11111111#8 = .ok (.call 5) := by decide

theorem test_decode_jmp : decode 0b01010100#8 0b00000101#8 0b11111111#8 = .ok (.jmp 5) := by decide

theorem test_decode_jeq : decode 0b01010101#8 0b00000101#8 0b11111111#8 = .ok (.jeq 5) := by decide

theorem test_decode_jne : decode 0b01010110#8 0b00000101#8 0b11111111#8 = .ok (.jne 5) := by decide

theorem test_decode_jgt : decode 0b01010111#8 0b00000101#8 0b11111111#8 = .ok (.jgt 5) := by decide

theorem test_decode_jlt : decode 0b01011000#8 0b00000101#8 0b11111111#8 = .ok (.jlt 5) := by decide

theorem test_decode_jle : decode 0b01011001#8 0b00000101#8 0b11111111#8 = .ok (.jle 5) := by decide

theorem test_decode_jge : decode 0b01011010#8 0b00000101#8 0b11111111#8 = .ok (.jge 5) := by decide

theorem test_decode_not : decode 0b01101001#8 0b00000101#8 0b11111111#8 = .ok (.not 5) := by decide

theorem test_decode_ldi : decode 0b10000010#8 0b00000011#8 0b11001010#8 = .ok (.ldi 3 202) := by decide

theorem test_decode_ld : decode 0b10000011#8 0b00000101#8 0b00000010#8 = .ok (.ld 5 2) := by decide

theorem test_decode_st : decode 0b10000100#8 0b00000101#8 0b00000010#8 = .ok (.st 5 2) := by decide

theorem test_decode_add : decode 0b10100000#8 0b00000101#8 0b00000010#8 = .ok (.add 5 2) := by decide

theorem test_decode_mul : decode 0b10100010#8 0b00000101#8 0b00000010#8 = .ok (.mul 5 2) := by decide

theorem test_decode_mod : decode 0b10100100#8 0b00000101#8 0b00000010#8 = .ok (.mod 5 2) := by decide

theorem test_decode_cmp : decode 0b10100111#8 0b00000101#8 0b00000010#8 = .ok (.cmp 5 2) := by decide

theorem test_decode_and : decode 0b10101000#8 0b00000101#8 0b00000010#8 = .ok (.and 5 2) := by decide

theorem test_decode_or : decode 0b10101010#8 0b00000101#8 0b00000010#8 = .ok (.or 5 2) := by decide

theorem test_decode_xor : decode 0b10101011#8 0b00000101#8 0b00000010#8 = .ok (.xor 5 2) := by decide

theorem test_decode_shl : decode 0b10101100#8 0b00000101#8 0b00000010#8 = .ok (.shl 5 2) := by decide

theorem test_decode_shr : decode 0b10101101#8 0b00000101#8 0b00000010#8 = .ok (.shr 5 2) := by decide

theorem test_reject_nop : decode 0x00#8 0#8 0#8 = .error .unregistered := by decide

theorem test_reject_sub : decode 0xA1#8 0#8 0#8 = .error .unsupportedAlu := by decide

theorem test_reject_low_nibble_of_hlt : decode 0x41#8 0#8 0#8 = .error .unregistered := by decide

theorem test_reject_bit_five : decode 0x21#8 0#8 0#8 = .error .unsupportedAlu := by decide

theorem test_reject_short : decodeBytes [0x01#8, 0x00#8] = .error .tooShort := by decide

theorem test_table_word_ldi : decodeTableWord 24 0xCA0382 = some (.ldi 3 202) := by decide

theorem test_table_word_short : decodeTableWord 8 0xFFFFA0 = some (.add 0 0) := by decide

/-! ### One step of each instruction -/

/-- A2. -/
theorem test_add_wraps :
    after (at10 [0xA0, 0, 1] [(0, 0xFF), (1, 1)] []) (fun t => (t.readReg 0, t.pc)) = some (0x00, 0x13) := by decide

/-- A5. -/
theorem test_add_same_register :
    after (at10 [0xA0, 4, 4] [(4, 0x81)] []) (fun t => t.readReg 4) = some 0x02 := by decide

/-- M3. -/
theorem test_mul_low_byte :
    after (at10 [0xA2, 0, 1] [(0, 0xFF), (1, 0xFF)] []) (fun t => (t.readReg 0, t.pc)) = some (0x01, 0x13) := by decide

/-- M5. -/
theorem test_mul_square :
    after (at10 [0xA2, 2, 2] [(2, 0x0C)] []) (fun t => t.readReg 2) = some 0x90 := by decide

/-- B1. -/
theorem test_and :
    after (at10 [0xA8, 0, 1] [(0, 0xF0), (1, 0x3C)] []) (fun t => (t.readReg 0, t.readReg 1)) = some (0x30, 0x3C) := by decide

/-- B2. -/
theorem test_or :
    after (at10 [0xAA, 0, 1] [(0, 0xF0), (1, 0x3C)] []) (fun t => (t.readReg 0, t.readReg 1)) = some (0xFC, 0x3C) := by decide

/-- B3. -/
theorem test_xor :
    after (at10 [0xAB, 0, 1] [(0, 0xF0), (1, 0x3C)] []) (fun t => (t.readReg 0, t.readReg 1)) = some (0xCC, 0x3C) := by decide

/-- B6. -/
theorem test_xor_clears :
    after (at10 [0xAB, 3, 3] [(3, 0x5A)] []) (fun t => t.readReg 3) = some 0x00 := by decide

/-- N4. -/
theorem test_not :
    after (at10 [0x69, 3] [(3, 0xF0)] []) (fun t => (t.readReg 3, t.pc)) = some (0x0F, 0x12) := by decide

/-- N5. -/
theorem test_not_ignores_next_byte :
    after (at10 [0x69, 0, 0xFF] [(0, 0x0F)] []) (fun t => (t.readReg 0, t.pc)) = some (0xF0, 0x12) := by decide

/-- L4: the amount is not taken modulo 8. -/
theorem test_shl_by_eight :
    after (at10 [0xAC, 0, 1] [(0, 0x01), (1, 8)] []) (fun t => t.readReg 0) = some 0x00 := by decide

/-- L7. -/
theorem test_shl_same_register :
    after (at10 [0xAC, 0, 0] [(0, 3)] []) (fun t => t.readReg 0) = some 0x18 := by decide

/-- H2. -/
theorem test_shr_is_logical :
    after (at10 [0xAD, 0, 1] [(0, 0x81), (1, 1)] []) (fun t => t.readReg 0) = some 0x40 := by decide

/-- H6. -/
theorem test_shr_by_128 :
    after (at10 [0xAD, 5, 5] [(5, 0x80)] []) (fun t => t.readReg 5) = some 0x00 := by decide

/-- O7. -/
theorem test_mod_unsigned :
    after (at10 [0xA4, 0, 1] [(0, 0xFF), (1, 0x80)] []) (fun t => (t.readReg 0, t.pc)) = some (0x7F, 0x13) := by decide

/-- O8. -/
theorem test_mod_by_zero :
    after (at10 [0xA4, 0, 1] [(0, 7)] []) (fun t => (t.readReg 0, t.fault, t.halted)) = some (0x07, some ⟨.arithmetic, 0x10, some 0xA4⟩, false) := by decide

/-- C4. -/
theorem test_cmp_unsigned :
    after (at10 [0xA7, 0, 1] [(0, 0x80), (1, 0x7F)] []) (fun t => (t.flags, t.pc)) = some (⟨false, false, true⟩, 0x13) := by decide

/-- C2, from flags that were E. -/
theorem test_cmp_clears_others :
    after ({ at10 [0xA7, 0, 1] [(0, 3), (1, 7)] [] with flags := ⟨true, false, false⟩ }) (fun t => t.flags) = some ⟨false, true, false⟩ := by decide

/-- T3: the jump itself does not fault. -/
theorem test_jmp :
    after (at10 [0x54, 2] [(2, 0xFE)] []) (fun t => (t.pc, t.fault)) = some (0xFE, none) := by decide

/-- J1. -/
theorem test_jeq_taken :
    after ({ at10 [0x55, 3] [(3, 0x40)] [] with flags := ⟨true, false, false⟩ }) (fun t => t.pc) = some 0x40 := by decide

/-- J1. -/
theorem test_jeq_not_taken :
    after ({ at10 [0x55, 3] [(3, 0x40)] [] with flags := ⟨false, true, false⟩ }) (fun t => t.pc) = some 0x12 := by decide

/-- J1. -/
theorem test_jne_taken :
    after ({ at10 [0x56, 3] [(3, 0x40)] [] with flags := ⟨false, false, false⟩ }) (fun t => t.pc) = some 0x40 := by decide

/-- J1. -/
theorem test_jne_not_taken :
    after ({ at10 [0x56, 3] [(3, 0x40)] [] with flags := ⟨true, false, false⟩ }) (fun t => t.pc) = some 0x12 := by decide

/-- J1. -/
theorem test_jgt_taken :
    after ({ at10 [0x57, 3] [(3, 0x40)] [] with flags := ⟨false, false, true⟩ }) (fun t => t.pc) = some 0x40 := by decide

/-- J1. -/
theorem test_jgt_not_taken :
    after ({ at10 [0x57, 3] [(3, 0x40)] [] with flags := ⟨false, true, false⟩ }) (fun t => t.pc) = some 0x12 := by decide

/-- J1. -/
theorem test_jlt_taken :
    after ({ at10 [0x58, 3] [(3, 0x40)] [] with flags := ⟨false, true, false⟩ }) (fun t => t.pc) = some 0x40 := by decide

/-- J1. -/
theorem test_jlt_not_taken :
    after ({ at10 [0x58, 3] [(3, 0x40)] [] with flags := ⟨false, false, true⟩ }) (fun t => t.pc) = some 0x12 := by decide

/-- J1. -/
theorem test_jle_taken :
    after ({ at10 [0x59, 3] [(3, 0x40)] [] with flags := ⟨true, false, false⟩ }) (fun t => t.pc) = some 0x40 := by decide

/-- J1. -/
theorem test_jle_not_taken :
    after ({ at10 [0x59, 3] [(3, 0x40)] [] with flags := ⟨false, false, true⟩ }) (fun t => t.pc) = some 0x12 := by decide

/-- J1. -/
theorem test_jge_taken :
    after ({ at10 [0x5A, 3] [(3, 0x40)] [] with flags := ⟨true, false, false⟩ }) (fun t => t.pc) = some 0x40 := by decide

/-- J1. -/
theorem test_jge_not_taken :
    after ({ at10 [0x5A, 3] [(3, 0x40)] [] with flags := ⟨false, false, false⟩ }) (fun t => t.pc) = some 0x12 := by decide

/-- K3. -/
theorem test_push_wraps :
    after (at10 [0x45, 0] [(7, 0), (0, 0xAA)] []) (fun t => (t.sp, t.memRead 0xFF, t.pc)) = some (0xFF, 0xAA, 0x12) := by decide

/-- K5. -/
theorem test_push_stack_pointer :
    after (at10 [0x45, 7] [(7, 0xF4)] []) (fun t => (t.sp, t.memRead 0xF3)) = some (0xF3, 0xF3) := by decide

/-- K4. -/
theorem test_pop_wraps :
    after (at10 [0x46, 0] [(7, 0xFF)] [(0xFF, 0xAA)]) (fun t => (t.readReg 0, t.sp, t.pc)) = some (0xAA, 0x00, 0x12) := by decide

/-- K6. -/
theorem test_pop_stack_pointer :
    after (at10 [0x46, 7] [(7, 0xF3)] [(0xF3, 0x20)]) (fun t => t.sp) = some 0x21 := by decide

/-- Q1. -/
theorem test_call :
    after (at_ 0x09#9 [0x50, 1] [(1, 0x12), (7, 0xF4)] []) (fun t => (t.sp, t.memRead 0xF3, t.pc)) =
      some (0xF3, 0x0B, 0x12) := by decide

/-- Q4: the target is the decremented stack pointer. -/
theorem test_call_stack_pointer :
    after (at_ 0#9 [0x50, 7] [(7, 0xF4)] []) (fun t => (t.sp, t.memRead 0xF3, t.pc)) =
      some (0xF3, 0x02, 0xF3) := by decide

/-- Q5. -/
theorem test_ret_wraps :
    after (at10 [0x11] [(7, 0xFF)] [(0xFF, 0x30)]) (fun t => (t.pc, t.sp)) = some (0x30, 0x00) := by decide

/-- Q7. -/
theorem test_ret_ignores_operands :
    after (at10 [0x11, 0xFF, 0xFF] [(7, 0xF3)] [(0xF3, 0x0B)]) (fun t => (t.pc, t.sp)) = some (0x0B, 0xF4) := by decide

/-- D4v: the immediate is no register index. -/
theorem test_ldi_immediate_nine :
    after (at10 [0x82, 0, 9] [] []) (fun t => (t.readReg 0, t.fault, t.pc)) = some (0x09, none, 0x13) := by decide

/-- D3v. -/
theorem test_ldi_stack_pointer :
    after (at10 [0x82, 7, 0x80] [] []) (fun t => t.sp) = some 0x80 := by decide

/-- D7v. -/
theorem test_ld_same_register :
    after (at10 [0x83, 1, 1] [(1, 0x40)] [(0x40, 0x5A)]) (fun t => (t.readReg 1, t.pc)) = some (0x5A, 0x13) := by decide

/-- D8v. -/
theorem test_ld_own_opcode :
    after (at10 [0x83, 0, 1] [(1, 0x10)] []) (fun t => t.readReg 0) = some 0x83 := by decide

/-- D10v. -/
theorem test_st_operand_order :
    after (at10 [0x84, 1, 0] [(1, 0x80), (0, 0x2A)] []) (fun t => (t.memRead 0x80, t.memRead 0x2A, t.pc)) = some (0x2A, 0x00, 0x13) := by decide

/-- D13v. -/
theorem test_st_over_itself :
    after (at10 [0x84, 1, 0] [(1, 0x10), (0, 1)] []) (fun t => (t.memRead 0x10, t.pc, t.halted)) = some (0x01, 0x13, false) := by decide

/-- P2v. -/
theorem test_prn :
    after (at10 [0x47, 7] [(7, 0xF4)] []) (fun t => (t.out, t.pc)) = some ([⟨.num, 0xF4⟩], 0x12) := by decide

/-- P4v. -/
theorem test_pra_zero :
    after (at10 [0x48, 0] [] []) (fun t => (t.out, t.pc)) = some ([⟨.chr, 0x00⟩], 0x12) := by decide

/-- P6v. -/
theorem test_hlt :
    after (at10 [0x01, 0xFF, 0xFF] [] []) (fun t => (t.halted, t.pc, t.runState)) = some (true, 0x11, .halted) := by decide

/-- P7v. -/
theorem test_hlt_highest :
    after (at_ 0xFD#9 [0x01] [] []) (fun t => (t.runState, t.pc)) = some (.halted, 0xFE) := by decide

/-! ### Fetch, faults, budget, memory -/

/-- F1. -/
theorem test_decode_fault :
    after (at_ 0x20#9 [0x00] [] []) (fun t => (t.fault, t.pc)) = some (some ⟨.decode, 0x20, some 0x00⟩, 0x20) := by decide

/-- F14: the unregistered opcode comes before the register index. -/
theorem test_unsupported_alu_priority :
    after (at_ 0x20#9 [0xA1, 9, 9] [] []) (fun t => t.fault) = some (some ⟨.unsupportedAlu, 0x20, some 0xA1⟩) := by decide

/-- O10: the register index comes before the zero divisor. -/
theorem test_register_index_priority :
    after (at10 [0xA4, 8, 0] [] []) (fun t => t.fault) = some (some ⟨.registerIndex, 0x10, some 0xA4⟩) := by decide

/-- J2: the index is checked on a jump that is not taken. -/
theorem test_index_checked_when_not_taken :
    after (at10 [0x55, 9] [] []) (fun t => t.fault) = some (some ⟨.registerIndex, 0x10, some 0x55⟩) := by decide

/-- K8: nothing is pushed. -/
theorem test_push_fault_is_precise :
    after (at10 [0x45, 8] [(7, 0xF4)] []) (fun t => (t.sp, t.memRead 0xF3)) = some (0xF4, 0x00) := by decide

/-- P8v, F13: AddressRangeFault whatever the byte is. -/
theorem test_address_range_fault :
    after (at_ 0xFE#9 [0x01] [] []) (fun t => (t.fault, t.halted)) =
      some (some ⟨.addressRange, 0xFE, some 0x01⟩, false) := by decide

/-- F10: the byte is absent at 256. -/
theorem test_address_range_fault_absent :
    after (at_ 0x100#9 [] [] []) (fun t => t.fault) = some (some ⟨.addressRange, 0x100, none⟩) := by decide

/-- F11: an instruction in the last three cells leaves `pc` at 256. -/
theorem test_pc_reaches_256 :
    after (at_ 0xFD#9 [0x82, 1, 7] [] []) (fun t => (t.readReg 1, t.pc)) = some (0x07, 0x100) := by decide

/-- R171: an empty image faults on the first fetch. -/
theorem test_first_step_of_empty_memory :
    after State.reset (fun t => t.fault) = some (some ⟨.decode, 0, some 0x00⟩) := by decide

/-- R153: the budget is spent by completed cycles. -/
theorem test_budget_counts :
    after { at10 [0x82, 0, 9] [] [] with budget := some 2 } (fun t => (t.budget, t.fault)) = some (some 1, none) := by decide

/-- R153. -/
theorem test_budget_fault :
    after { at10 [0x82, 0, 9] [] [] with budget := some 0 } (fun t => (t.fault, t.pc)) =
      some (some ⟨.budget, 0x10, none⟩, 0x10) := by decide

/-- R30: writing the value an unlisted cell reads as removes the entry. -/
theorem test_memory_canonical :
    Memory.write (Memory.write (Memory.write [] 5 1) 3 2) 5 0 = [(3, 2#8)] := by decide

/-- A placed word runs: the host's interface. -/
theorem test_placed_word_runs :
    after (State.reset.withFetchWord 24 0x080082) (fun t => (t.readReg 0, t.pc)) = some (0x08, 0x03) := by decide

/-! ### Witnesses: every statement's hypotheses are met, each clause at a boundary of its range -/

theorem test_witness_PushStoresBelowStackPointer :
    (execd (.push 7) (at10 [] [] []) (·.memRead 0xF3) = some 0xF3 ∧
      execd (.push 6) (at10 [] [(6, 5)] []) (·.memRead 0xF3) = some 5) ∧
    7 < (8#8 : Byte).toNat ∧ execd (.push 8) (at10 [] [] []) (·.fault) = some (some ⟨.registerIndex, 0x10, some 0x45⟩) := by decide

theorem test_witness_PopLoadsFromStackPointer :
    (1 : Fin 8) ≠ 7 ∧ (7 : Fin 8) = 7 ∧ 7 < (8#8 : Byte).toNat ∧ execd (.pop 8) (at10 [] [] []) (·.fault) = some (some ⟨.registerIndex, 0x10, some 0x46⟩) := by decide

theorem test_witness_PrintNumberEmitsEvent :
    7 < (8#8 : Byte).toNat ∧ execd (.prn 8) (at10 [] [] []) (·.fault) = some (some ⟨.registerIndex, 0x10, some 0x47⟩) := by decide

theorem test_witness_PrintCharacterEmitsEvent :
    7 < (8#8 : Byte).toNat ∧ execd (.pra 8) (at10 [] [] []) (·.fault) = some (some ⟨.registerIndex, 0x10, some 0x48⟩) := by decide

theorem test_witness_CallPushesReturnAddress :
    ((at_ 0xFD#9 [] [] []).pc.toNat ≤ 253 ∧
      execd (.call 1) (at_ 0xFD#9 [] [(1, 0x20)] []) (fun t => (t.memRead 0xF3, t.pc)) = some (0xFF, 0x20)) ∧
    7 < (8#8 : Byte).toNat ∧ execd (.call 8) (at10 [] [] []) (·.fault) = some (some ⟨.registerIndex, 0x10, some 0x50⟩) := by decide

theorem test_witness_JumpGoesToRegister :
    7 < (8#8 : Byte).toNat ∧ execd (.jmp 8) (at10 [] [] []) (·.fault) = some (some ⟨.registerIndex, 0x10, some 0x54⟩) := by decide

theorem test_witness_JumpIfEqualTestsE :
    (((⟨true, false, false⟩ : Flags).e = true) ∧ execd (.jeq 7) { at10 [] [] [] with flags := ⟨true, false, false⟩ } (·.pc) = some 0xF4) ∧
    (¬((⟨false, true, false⟩ : Flags).e = true) ∧ execd (.jeq 7) { at10 [] [] [] with flags := ⟨false, true, false⟩ } (·.pc) = some 0x12) ∧
    7 < (8#8 : Byte).toNat ∧ execd (.jeq 8) (at10 [] [] []) (·.fault) = some (some ⟨.registerIndex, 0x10, some 0x55⟩) := by decide

theorem test_witness_JumpIfNotEqualTestsE :
    (((⟨false, false, false⟩ : Flags).e = false) ∧ execd (.jne 7) { at10 [] [] [] with flags := ⟨false, false, false⟩ } (·.pc) = some 0xF4) ∧
    (¬((⟨true, false, false⟩ : Flags).e = false) ∧ execd (.jne 7) { at10 [] [] [] with flags := ⟨true, false, false⟩ } (·.pc) = some 0x12) ∧
    7 < (8#8 : Byte).toNat ∧ execd (.jne 8) (at10 [] [] []) (·.fault) = some (some ⟨.registerIndex, 0x10, some 0x56⟩) := by decide

theorem test_witness_JumpIfGreaterTestsG :
    (((⟨false, false, true⟩ : Flags).g = true) ∧ execd (.jgt 7) { at10 [] [] [] with flags := ⟨false, false, true⟩ } (·.pc) = some 0xF4) ∧
    (¬((⟨false, true, false⟩ : Flags).g = true) ∧ execd (.jgt 7) { at10 [] [] [] with flags := ⟨false, true, false⟩ } (·.pc) = some 0x12) ∧
    7 < (8#8 : Byte).toNat ∧ execd (.jgt 8) (at10 [] [] []) (·.fault) = some (some ⟨.registerIndex, 0x10, some 0x57⟩) := by decide

theorem test_witness_JumpIfLessTestsL :
    (((⟨false, true, false⟩ : Flags).l = true) ∧ execd (.jlt 7) { at10 [] [] [] with flags := ⟨false, true, false⟩ } (·.pc) = some 0xF4) ∧
    (¬((⟨false, false, true⟩ : Flags).l = true) ∧ execd (.jlt 7) { at10 [] [] [] with flags := ⟨false, false, true⟩ } (·.pc) = some 0x12) ∧
    7 < (8#8 : Byte).toNat ∧ execd (.jlt 8) (at10 [] [] []) (·.fault) = some (some ⟨.registerIndex, 0x10, some 0x58⟩) := by decide

theorem test_witness_JumpIfLessOrEqualTestsLOrE :
    (((⟨true, false, false⟩ : Flags).l = true ∨ (⟨true, false, false⟩ : Flags).e = true) ∧ execd (.jle 7) { at10 [] [] [] with flags := ⟨true, false, false⟩ } (·.pc) = some 0xF4) ∧
    (¬((⟨false, false, true⟩ : Flags).l = true ∨ (⟨false, false, true⟩ : Flags).e = true) ∧ execd (.jle 7) { at10 [] [] [] with flags := ⟨false, false, true⟩ } (·.pc) = some 0x12) ∧
    7 < (8#8 : Byte).toNat ∧ execd (.jle 8) (at10 [] [] []) (·.fault) = some (some ⟨.registerIndex, 0x10, some 0x59⟩) := by decide

theorem test_witness_JumpIfGreaterOrEqualTestsGOrE :
    (((⟨true, false, false⟩ : Flags).g = true ∨ (⟨true, false, false⟩ : Flags).e = true) ∧ execd (.jge 7) { at10 [] [] [] with flags := ⟨true, false, false⟩ } (·.pc) = some 0xF4) ∧
    (¬((⟨false, true, false⟩ : Flags).g = true ∨ (⟨false, true, false⟩ : Flags).e = true) ∧ execd (.jge 7) { at10 [] [] [] with flags := ⟨false, true, false⟩ } (·.pc) = some 0x12) ∧
    7 < (8#8 : Byte).toNat ∧ execd (.jge 8) (at10 [] [] []) (·.fault) = some (some ⟨.registerIndex, 0x10, some 0x5A⟩) := by decide

theorem test_witness_NotComplementsRegister :
    7 < (8#8 : Byte).toNat ∧ execd (.not 8) (at10 [] [] []) (·.fault) = some (some ⟨.registerIndex, 0x10, some 0x69⟩) := by decide

theorem test_witness_LoadImmediateWritesRegister :
    7 < (8#8 : Byte).toNat ∧ execd (.ldi 8 0) (at10 [] [] []) (·.fault) = some (some ⟨.registerIndex, 0x10, some 0x82⟩) := by decide

theorem test_witness_LoadReadsThroughRegister :
    (7 < (8#8 : Byte).toNat ∧ execd (.ld 8 7) (at10 [] [] []) (·.fault) = some (some ⟨.registerIndex, 0x10, some 0x83⟩)) ∧
    execd (.ld 7 8) (at10 [] [] []) (·.fault) = some (some ⟨.registerIndex, 0x10, some 0x83⟩) := by decide

theorem test_witness_StoreWritesThroughRegister :
    (7 < (8#8 : Byte).toNat ∧ execd (.st 8 7) (at10 [] [] []) (·.fault) = some (some ⟨.registerIndex, 0x10, some 0x84⟩)) ∧
    execd (.st 7 8) (at10 [] [] []) (·.fault) = some (some ⟨.registerIndex, 0x10, some 0x84⟩) := by decide

theorem test_witness_AddWritesSumModulo256 :
    (7 < (8#8 : Byte).toNat ∧ execd (.add 8 7) (at10 [] [] []) (·.fault) = some (some ⟨.registerIndex, 0x10, some 0xA0⟩)) ∧
    execd (.add 7 8) (at10 [] [] []) (·.fault) = some (some ⟨.registerIndex, 0x10, some 0xA0⟩) := by decide

theorem test_witness_MulWritesLowProductByte :
    (7 < (8#8 : Byte).toNat ∧ execd (.mul 8 7) (at10 [] [] []) (·.fault) = some (some ⟨.registerIndex, 0x10, some 0xA2⟩)) ∧
    execd (.mul 7 8) (at10 [] [] []) (·.fault) = some (some ⟨.registerIndex, 0x10, some 0xA2⟩) := by decide

theorem test_witness_ModWritesRemainderOrFaults :
    ((at10 [] [(0, 17), (1, 5)] []).readReg 1 ≠ 0#8 ∧
      execd (.mod 0 1) (at10 [] [(0, 17), (1, 5)] []) (·.readReg 0) = some 2) ∧
    ((at10 [] [] []).readReg 1 = 0#8 ∧
      execd (.mod 0 1) (at10 [] [] []) (·.fault) = some (some ⟨.arithmetic, 0x10, some 0xA4⟩)) ∧
    (7 < (8#8 : Byte).toNat ∧ execd (.mod 8 7) (at10 [] [] []) (·.fault) = some (some ⟨.registerIndex, 0x10, some 0xA4⟩)) ∧
    execd (.mod 7 8) (at10 [] [] []) (·.fault) = some (some ⟨.registerIndex, 0x10, some 0xA4⟩) := by decide

theorem test_witness_CompareSetsExactlyOneFlag :
    (7 < (8#8 : Byte).toNat ∧ execd (.cmp 8 7) (at10 [] [] []) (·.fault) = some (some ⟨.registerIndex, 0x10, some 0xA7⟩)) ∧
    execd (.cmp 7 8) (at10 [] [] []) (·.fault) = some (some ⟨.registerIndex, 0x10, some 0xA7⟩) := by decide

theorem test_witness_AndWritesBitwiseAnd :
    (7 < (8#8 : Byte).toNat ∧ execd (.and 8 7) (at10 [] [] []) (·.fault) = some (some ⟨.registerIndex, 0x10, some 0xA8⟩)) ∧
    execd (.and 7 8) (at10 [] [] []) (·.fault) = some (some ⟨.registerIndex, 0x10, some 0xA8⟩) := by decide

theorem test_witness_OrWritesBitwiseOr :
    (7 < (8#8 : Byte).toNat ∧ execd (.or 8 7) (at10 [] [] []) (·.fault) = some (some ⟨.registerIndex, 0x10, some 0xAA⟩)) ∧
    execd (.or 7 8) (at10 [] [] []) (·.fault) = some (some ⟨.registerIndex, 0x10, some 0xAA⟩) := by decide

theorem test_witness_XorWritesBitwiseXor :
    (7 < (8#8 : Byte).toNat ∧ execd (.xor 8 7) (at10 [] [] []) (·.fault) = some (some ⟨.registerIndex, 0x10, some 0xAB⟩)) ∧
    execd (.xor 7 8) (at10 [] [] []) (·.fault) = some (some ⟨.registerIndex, 0x10, some 0xAB⟩) := by decide

theorem test_witness_ShlMultipliesByPowerOfTwo :
    (7 < (8#8 : Byte).toNat ∧ execd (.shl 8 7) (at10 [] [] []) (·.fault) = some (some ⟨.registerIndex, 0x10, some 0xAC⟩)) ∧
    execd (.shl 7 8) (at10 [] [] []) (·.fault) = some (some ⟨.registerIndex, 0x10, some 0xAC⟩) := by decide

theorem test_witness_ShrDividesByPowerOfTwo :
    (7 < (8#8 : Byte).toNat ∧ execd (.shr 8 7) (at10 [] [] []) (·.fault) = some (some ⟨.registerIndex, 0x10, some 0xAD⟩)) ∧
    execd (.shr 7 8) (at10 [] [] []) (·.fault) = some (some ⟨.registerIndex, 0x10, some 0xAD⟩) := by decide

/-! Witnesses of the statements about the whole machine. -/

theorem canFetch_at10 (bytes : List Byte) : CanFetch (at10 bytes [] []) :=
  ⟨rfl, nofun, show (0x10#9 : PcWord).toNat ≤ 253 by decide⟩

theorem canFetch_atFD (bytes : List Byte) : CanFetch (at_ 0xFD#9 bytes [] []) :=
  ⟨rfl, nofun, show (0xFD#9 : PcWord).toNat ≤ 253 by decide⟩

theorem test_witness_HaltSetsFlagAndAdvances :
    (CanFetch (at_ 0xFD#9 [0x01] [] []) ∧ (at_ 0xFD#9 [0x01] [] []).cell 0xFD = 0x01#8) ∧
    ((at_ 0xFE#9 [0x01] [] []).runState = .running ∧ (at_ 0xFE#9 [0x01] [] []).budget ≠ some 0 ∧
      (at_ 0xFE#9 [0x01] [] []).cell 0xFE = 0x01#8) ∧
    ((at_ 0xFF#9 [0x01] [] []).runState = .running ∧ (at_ 0xFF#9 [0x01] [] []).budget ≠ some 0 ∧
      (at_ 0xFF#9 [0x01] [] []).cell 0xFF = 0x01#8) :=
  ⟨⟨canFetch_atFD _, by decide⟩, by decide, by decide⟩

theorem test_witness_DecodeIffEncodeIsPrefix :
    decode 0x45#8 7 9 = .ok (.push 7) ∧ encode (.push 7) = ([0x45#8, 7, 9].take ((0x45#8 : Byte).toNat / 64 + 1)) := by
  decide

theorem test_witness_UnusedOperandBytesIgnored :
    ((0x11#8 : Byte).toNat / 64 = 0 ∧ decode 0x11#8 0 0 = decode 0x11#8 255 9) ∧
    ((0x69#8 : Byte).toNat / 64 = 1 ∧ decode 0x69#8 8 0 = decode 0x69#8 8 255) := by decide

theorem test_witness_EveryByteIsOpcodeOrFaults :
    (decode 0xAD#8 0 0 = .ok (.shr 0 0) ∧ opcodeOf (.shr 0 0) = 0xAD#8) ∧
    decode 0xFF#8 0 0 = .error .unsupportedAlu ∧ decode 0x00#8 0 0 = .error .unregistered := by decide

theorem test_witness_StepRunsDecodedInstruction :
    CanFetch (at_ 0xFD#9 [0x82, 7, 9] [] []) ∧ (at_ 0xFD#9 [0x82, 7, 9] [] []).budget = none ∧
    decode ((at_ 0xFD#9 [0x82, 7, 9] [] []).cell 0xFD) ((at_ 0xFD#9 [0x82, 7, 9] [] []).cell 0xFE)
      ((at_ 0xFD#9 [0x82, 7, 9] [] []).cell 0xFF) = .ok (.ldi 7 9) :=
  ⟨canFetch_atFD _, rfl, by decide⟩

theorem test_witness_PlacedWordRuns :
    CanFetch (at_ 0xFD#9 [] [] []) ∧ decodeTableWord 24 0x010007 = none ∧ decodeTableWord 16 0x0747 = some (.prn 7) ∧
    (0xFC < (at_ 0xFD#9 [] [] []).pc.toNat ∧ (at_ 0xFD#9 [] [] []).pc.toNat + 2 < 0x100) :=
  ⟨canFetch_atFD _, by decide, by decide, by decide⟩

theorem test_witness_FetchBeyondMemoryFaults :
    ((at_ 0xFE#9 [] [] []).runState = .running ∧ (at_ 0xFE#9 [] [] []).budget ≠ some 0 ∧
      254 ≤ (at_ 0xFE#9 [] [] []).pc.toNat) ∧
    254 ≤ (at_ 0xFF#9 [] [] []).pc.toNat ∧ 254 ≤ (at_ 0x100#9 [] [] []).pc.toNat ∧
    ∃ t r, step (at_ 0xFF#9 [] [] []) = .next t ∧ t.fault = some r ∧ r.cause = .addressRange :=
  ⟨by decide, by decide, by decide, _, _, rfl, rfl, rfl⟩

theorem test_zero_is_no_opcode : ∀ i, opcodeOf i ≠ 0x00#8 := by
  intro i; cases i <;> exact show _ ≠ (0x00#8 : Byte) from nofun

theorem test_ff_is_no_opcode : ∀ i, opcodeOf i ≠ 0xFF#8 := by
  intro i; cases i <;> exact show _ ≠ (0xFF#8 : Byte) from nofun

/-- One step of `s` enters a fault. -/
def faults (s : State) (cause : FaultCause) : Prop :=
  ∃ t r, step s = .next t ∧ t.fault = some r ∧ r.cause = cause

theorem test_witness_UnregisteredOpcodeFaults :
    (CanFetch (at_ 0xFD#9 [] [] []) ∧ ((at_ 0xFD#9 [] [] []).cell 0xFD).getLsbD 5 = false ∧
      ∀ i, opcodeOf i ≠ (at_ 0xFD#9 [] [] []).cell 0xFD) ∧
    faults (at_ 0xFD#9 [] [] []) .decode :=
  ⟨⟨canFetch_atFD _, by decide, test_zero_is_no_opcode⟩, _, _, rfl, rfl, rfl⟩

theorem test_witness_UnsupportedAluOpcodeFaults :
    (CanFetch (at_ 0xFD#9 [0xFF] [] []) ∧ ((at_ 0xFD#9 [0xFF] [] []).cell 0xFD).getLsbD 5 = true ∧
      ∀ i, opcodeOf i ≠ (at_ 0xFD#9 [0xFF] [] []).cell 0xFD) ∧
    faults (at_ 0xFD#9 [0xFF] [] []) .unsupportedAlu :=
  ⟨⟨canFetch_atFD _, by decide, test_ff_is_no_opcode⟩, _, _, rfl, rfl, rfl⟩

theorem test_witness_IllFormedIndexFaults :
    ¬ (Instr.ld 7 8).WellFormed ∧ (at10 [] [] []).fault = none ∧
    ∃ t r, exec (.ld 7 8) (at10 [] [] []) = .next t ∧ t.fault = some r ∧ r.cause = .registerIndex :=
  ⟨by decide, rfl, _, _, rfl, rfl, rfl⟩

theorem test_witness_ArithmeticFaultOnlyFromModByZero :
    (at10 [] [] []).fault = none ∧ (at10 [] [] []).readReg 0 = 0#8 ∧
    ∃ t r, exec (.mod (regByte 7) (regByte 0)) (at10 [] [] []) = .next t ∧ t.fault = some r ∧ r.cause = .arithmetic :=
  ⟨rfl, by decide, _, _, rfl, rfl, rfl⟩

theorem test_witness_FaultPriorityOrder :
    faults { at_ 0x100#9 [] [] [] with budget := some 0 } .budget ∧
    faults (at_ 0xFE#9 [0xFF] [] []) .addressRange ∧
    faults (at_ 0xFD#9 [0xFF, 8] [] []) .unsupportedAlu ∧
    faults (at_ 0xFD#9 [0x00, 8] [] []) .decode ∧
    faults (at_ 0xFD#9 [0xA4, 8, 0] [] []) .registerIndex ∧
    faults (at_ 0xFD#9 [0xA4, 7, 0] [] []) .arithmetic :=
  ⟨⟨_, _, rfl, rfl, rfl⟩, ⟨_, _, rfl, rfl, rfl⟩, ⟨_, _, rfl, rfl, rfl⟩, ⟨_, _, rfl, rfl, rfl⟩, ⟨_, _, rfl, rfl, rfl⟩,
    ⟨_, _, rfl, rfl, rfl⟩⟩

theorem test_witness_FaultingStepChangesOnlyTheRecord :
    ∃ t, step (at_ 0x100#9 [] [] []) = .next t ∧ t.fault ≠ none :=
  ⟨_, rfl, nofun⟩

theorem test_witness_TerminalStatesTakeNoStep :
    { at10 [] [] [] with halted := true }.runState = .halted ∧
    { at10 [] [] [] with fault := some ⟨.decode, 0x10#9, some 0#8⟩ }.runState = .faulted := by decide

theorem test_witness_HaltFlagOnlyFromHlt :
    (∃ t, exec .hlt (at10 [] [] []) = .next t ∧ t.halted = true) ∧
    (∃ t, step (at_ 0xFD#9 [0x01] [] []) = .next t ∧ t.halted = true) ∧
    { at10 [] [] [] with halted := true }.halted = true :=
  ⟨⟨_, rfl, rfl⟩, ⟨_, rfl, rfl⟩, rfl⟩

theorem test_witness_FlagsOnlyFromCmp :
    (∃ t, step (at_ 0xFD#9 [0xA7, 7, 0] [] []) = .next t ∧ t.flags ≠ (at_ 0xFD#9 [0xA7, 7, 0] [] []).flags) ∧
    (∀ r, Instr.ret ≠ .jeq r ∧ Instr.ret ≠ .jne r ∧ Instr.ret ≠ .jgt r ∧ Instr.ret ≠ .jlt r ∧ Instr.ret ≠ .jle r ∧
      Instr.ret ≠ .jge r) ∧
    ∃ t, exec .ret (at10 [] [] []) = .next t :=
  ⟨⟨_, rfl, by decide⟩, fun _ => ⟨nofun, nofun, nofun, nofun, nofun, nofun⟩, _, rfl⟩

theorem test_witness_MemoryOnlyFromPushCallStore :
    (∃ t, exec (.push 7) (at10 [] [(7, 0)] []) = .next t ∧ t.cell 255 ≠ (at10 [] [(7, 0)] []).cell 255) ∧
    (∃ t, exec (.call 7) (at10 [] [(7, 0)] []) = .next t ∧ t.cell 255 ≠ (at10 [] [(7, 0)] []).cell 255) ∧
    ∃ t, exec (.st 0 7) (at10 [] [] []) = .next t ∧ t.cell 0 ≠ (at10 [] [] []).cell 0 :=
  ⟨⟨_, rfl, by decide⟩, ⟨_, rfl, by decide⟩, _, rfl, by decide⟩

theorem test_witness_RegistersOnlyByTable :
    ∃ t, exec (.pop 0) (at10 [] [] [(0xF4, 9)]) = .next t ∧ t.readReg 0 ≠ (at10 [] [] [(0xF4, 9)]).readReg 0 ∧
      t.readReg 7 ≠ (at10 [] [] [(0xF4, 9)]).readReg 7 :=
  ⟨_, rfl, by decide, by decide⟩

theorem test_witness_OutputOnlyFromPrint :
    (∃ t, step (at10 [0x47, 7] [] []) = .next t ∧ t.out ≠ []) ∧ ∃ t, step (at10 [0x48, 7] [] []) = .next t ∧ t.out ≠ [] :=
  ⟨⟨_, rfl, by decide⟩, _, rfl, by decide⟩

theorem test_witness_ProgramCounterAdvance :
    (setsPcBit ((at_ 0xFD#9 [0x82] [] []).cell 0xFD) = false ∧
      ∃ t, step (at_ 0xFD#9 [0x82] [] []) = .next t ∧ t.fault = none ∧ t.pc = 256#9) ∧
    setsPcBit ((at_ 0xFD#9 [0x54, 7] [] []).cell 0xFD) = true ∧
      ∃ t, step (at_ 0xFD#9 [0x54, 7] [] []) = .next t ∧ t.fault = none ∧ t.pc = 0xF4#9 :=
  ⟨⟨by decide, _, rfl, rfl, by decide⟩, by decide, _, rfl, rfl, by decide⟩

theorem test_witness_BudgetCountsCompletedCycles :
    (∃ t, step (at10 [0x01] [] []) = .next t ∧ (at10 [0x01] [] []).budget = none) ∧
    (∃ t, step { at10 [0x01] [] [] with budget := some 1 } = .next t ∧ t.fault = none ∧ t.budget = some 0) ∧
    (∃ t, step { at10 [0x00] [] [] with budget := some 1 } = .next t ∧ t.fault ≠ none ∧ t.budget = some 1) ∧
    ∃ t, step { at10 [0x01] [] [] with budget := some 0 } = .next t :=
  ⟨⟨_, rfl, rfl⟩, ⟨_, rfl, rfl, rfl⟩, ⟨_, rfl, nofun, rfl⟩, _, rfl⟩

theorem test_witness_BudgetBoundsEveryRun :
    { at10 [0x69] [] [] with budget := some 1 }.budget = some 1 ∧
    (run 1 { at10 [0x69] [] [] with budget := some 1 }).runState = .running ∧
    (run 0 { at10 [] [] [] with budget := some 0 }).runState = .running := by decide

theorem test_witness_InvariantKeptByEveryStep :
    Inv State.reset ∧ ∃ t, step State.reset = .next t :=
  ⟨⟨by decide, by decide, Or.inr (Or.inr (Or.inr (by decide))), nofun, nofun, nofun⟩, _, rfl⟩

theorem test_witness_LoadPlacesImage :
    (List.replicate 256 0x01#8).length ≤ 256 ∧ 256 < (List.replicate 257 0x01#8).length ∧
    load (List.replicate 257 0x01#8) = .refused .imageTooLong :=
  ⟨by rw [List.length_replicate], by rw [List.length_replicate]; decide,
    if_pos (by rw [List.length_replicate]; decide)⟩

theorem test_witness_PushThenPopRoundTrip :
    (0 : Fin 8) ≠ 7 ∧ (6 : Fin 8) ≠ 7 := by decide

theorem test_witness_CallThenReturnRoundTrip :
    (at_ 0xFD#9 [] [] []).pc.toNat ≤ 253 ∧
    ∃ t, exec (.call (regByte 1)) (at_ 0xFD#9 [] [] []) = .next t ∧ t.readReg 7 = t.readReg 7 ∧
      t.cell (t.readReg 7).toNat = 0xFF#8 :=
  ⟨by decide, _, rfl, rfl, by decide⟩

/-- An `ST R0, R1` in the last cells from which the next instruction can be fetched, storing 0xEE at `target`. -/
def storeAtFA (target : Byte) : State := at_ 0xFA#9 [0x84, 0, 1, 1, 2, 3] [(0, target), (1, 0xEE)] []

/-- The hypotheses are met, and the store is seen in each of the three latches of the next cycle (R41). -/
theorem test_witness_StoreIsSeenByNextFetch :
    (CanFetch (storeAtFA 0xFD) ∧ (storeAtFA 0xFD).cell 0xFA = 0x84#8 ∧ (storeAtFA 0xFD).cell 0xFB = regByte 0 ∧
      (storeAtFA 0xFD).cell 0xFC = regByte 1 ∧ (storeAtFA 0xFD).pc.toNat + 3 ≤ 253) ∧
    after (storeAtFA 0xFD) fetch = some (some ⟨0xEE, 2, 3⟩) ∧ after (storeAtFA 0xFE) fetch = some (some ⟨1, 0xEE, 3⟩) ∧
    after (storeAtFA 0xFF) fetch = some (some ⟨1, 2, 0xEE⟩) ∧ after (storeAtFA 0xFA) fetch = some (some ⟨1, 2, 3⟩) :=
  ⟨⟨⟨rfl, nofun, show (0xFA#9 : PcWord).toNat ≤ 253 by decide⟩, by decide⟩, by decide⟩

/-- Each cell at `pc` that exists is shown, and no other, at 253, 254, 255 and 256 (R156). -/
theorem test_witness_SnapshotShowsFetchedBytes :
    (fetch (at_ 0xFD#9 [1, 2, 3] [] [])).isSome ∧
    ((snapshot (at_ 0xFD#9 [1, 2, 3] [] [])).byte0 = some 1#8 ∧ (snapshot (at_ 0xFD#9 [1, 2, 3] [] [])).byte1 = some 2#8 ∧
      (snapshot (at_ 0xFD#9 [1, 2, 3] [] [])).byte2 = some 3#8) ∧
    ((snapshot (at_ 0xFE#9 [1, 2] [] [])).byte0 = some 1#8 ∧ (snapshot (at_ 0xFE#9 [1, 2] [] [])).byte1 = some 2#8 ∧
      (snapshot (at_ 0xFE#9 [1, 2] [] [])).byte2 = none) ∧
    ((snapshot (at_ 0xFF#9 [1] [] [])).byte0 = some 1#8 ∧ (snapshot (at_ 0xFF#9 [1] [] [])).byte1 = none ∧
      (snapshot (at_ 0xFF#9 [1] [] [])).byte2 = none) ∧
    ((snapshot (at_ 0x100#9 [] [] [])).byte0 = none ∧ (snapshot (at_ 0x100#9 [] [] [])).byte1 = none) := by decide

end Sys2Proof.Tests
end

section
/-! SUPPORT. What a step with a next state did, and how an answer follows a change of the state it starts from. -/

namespace Sys2Proof.Machine

/-- What dispatch makes of the three bytes at `pc` (R71, R73). -/
abbrev decodeAtPc (s : State) : Except DecodeReject Instr :=
  decode (s.cell s.pc.toNat) (s.cell (s.pc.toNat + 1)) (s.cell (s.pc.toNat + 2))

/-- An answer with its next state changed by `f`. -/
def mapNext (f : State → State) : Result → Result
  | .next s => .next (f s)
  | .fault r => .fault r
  | .refused r => .refused r

theorem afterExec_eq_mapNext (r : Result) : afterExec r = mapNext State.countCycle r := by
  cases r <;> rfl

theorem mapNext_eq_next {f : State → State} {r : Result} {t : State} :
    mapNext f r = .next t ↔ ∃ u, r = .next u ∧ f u = t := by
  cases r <;> simp [mapNext]

@[simp] theorem countCycle_halted (s : State) : s.countCycle.halted = s.halted := by
  rw [State.countCycle]; split <;> rfl

/-- Only a running engine steps (R77). -/
theorem step_next_running {s t : State} (h : step s = .next t) : s.fault = none ∧ s.halted = false :=
  (runState_running s).1 (engineStep_next s t h).1

/-- A step either takes a fault and runs no instruction, or runs the one at `pc` and counts the cycle. -/
theorem step_next_cases {s t : State} (h : step s = .next t) :
    (∃ c b, t = s.takeFault c b ∧ ∀ i, ¬(CanFetch s ∧ decodeAtPc s = .ok i)) ∨
    (CanFetch s ∧ ∃ i u, decodeAtPc s = .ok i ∧ exec i s = .next u ∧ t = u.countCycle) := by
  obtain ⟨hrun, hcycle⟩ := engineStep_next s t h
  rcases cycle_cases s with ⟨hb, e⟩ | ⟨-, hp, e⟩ | ⟨-, -, r, hd, e⟩ | ⟨hb, hp, i, hd, e⟩ <;> rw [e] at hcycle
  · exact .inl ⟨_, _, by cases hcycle; rfl, fun _ ⟨⟨_, hb', _⟩, _⟩ => hb' hb⟩
  · exact .inl ⟨_, _, by cases hcycle; rfl, fun _ ⟨⟨_, _, hp'⟩, _⟩ => by omega⟩
  · exact .inl ⟨_, _, by cases hcycle; rfl, fun _ ⟨_, hd'⟩ => nomatch hd.symm.trans hd'⟩
  · rw [afterExec_eq_mapNext, mapNext_eq_next] at hcycle
    obtain ⟨u, hu, rfl⟩ := hcycle
    exact .inr ⟨⟨hrun, hb, hp⟩, i, u, hd, hu, rfl⟩

section OperandForms

variable {f : State → State} {s : State} (hf : ∀ c b, (f s).takeFault c b = f (s.takeFault c b))
include hf

/-- A form with one register operand follows a change `f` of the state that its fault and the rest of its meaning follow. -/
theorem withReg_mapNext {ir o : Byte} {k k' : Fin 8 → Result} (hk : ∀ r, k' r = mapNext f (k r)) :
    withReg ir o (f s) k' = mapNext f (withReg ir o s k) := by
  rcases h : regidx o with _ | r
  · have ho := (regidx_none o).1 h
    rw [withReg_high _ _ _ _ ho, withReg_high _ _ _ _ ho, hf]; rfl
  · obtain rfl := (regidx_some o r).1 h
    rw [withReg_regByte, withReg_regByte, hk]

/-- A form with two register operands follows such a change too. -/
theorem withRegs_mapNext {ir o1 o2 : Byte} {k k' : Fin 8 → Fin 8 → Result}
    (hk : ∀ a b, k' a b = mapNext f (k a b)) :
    withRegs ir o1 o2 (f s) k' = mapNext f (withRegs ir o1 o2 s k) :=
  withReg_mapNext hf fun a => withReg_mapNext hf (hk a)

end OperandForms

end Sys2Proof.Machine
end

section
/-! PROOFS. The halt flag (R16) and the reset state (R23): O44 and O55. -/

namespace Sys2Proof.Machine

/-- `s` with the halt flag at `h`. -/
def State.withHaltFlag (h : Bool) (s : State) : State := { s with halted := h }

@[simp] theorem withHaltFlag_halted (h : Bool) (s : State) : (s.withHaltFlag h).halted = h := rfl

theorem withHaltFlag_self (s : State) : s.withHaltFlag s.halted = s := rfl

/-- Every instruction but `HLT` carries the halt flag along: it neither reads it nor writes it. -/
theorem exec_withHaltFlag {i : Instr} (hi : i ≠ .hlt) (h : Bool) (s : State) :
    exec i (s.withHaltFlag h) = mapNext (.withHaltFlag h) (exec i s) := by
  have hf : ∀ c b, (s.withHaltFlag h).takeFault c b = (s.takeFault c b).withHaltFlag h := fun _ _ => rfl
  cases i with
  | hlt => exact absurd rfl hi
  | ret => rfl
  | push r | pop r | prn r | pra r | call r | jmp r | jeq r | jne r | jgt r | jlt r | jle r | jge r | not r | ldi r v =>
    exact withReg_mapNext hf fun _ => rfl
  | ld a b | st a b | add a b | mul a b | cmp a b | and a b | or a b | xor a b | shl a b | shr a b =>
    exact withRegs_mapNext hf fun _ _ => rfl
  | mod a b =>
    refine withRegs_mapNext hf fun a b => ?_
    rw [apply_ite (mapNext _)]
    rfl

theorem exec_hlt (s : State) : exec .hlt s = .next (s.setHalted.setPc (s.pc + 1#9)) := finish_hlt _

/-- Every instruction but `HLT` keeps the halt flag. -/
theorem exec_halted_of_ne_hlt {i : Instr} {s t : State} (hi : i ≠ .hlt) (ht : exec i s = .next t) :
    t.halted = s.halted := by
  have hmap := exec_withHaltFlag hi s.halted s
  rw [withHaltFlag_self, ht] at hmap
  obtain ⟨u, -, rfl⟩ := mapNext_eq_next.1 hmap.symm
  exact withHaltFlag_halted ..

/-- After an instruction the halt flag is set when it was set before or the instruction is `HLT` (R16, R135). -/
theorem exec_halted_iff {i : Instr} {s t : State} (ht : exec i s = .next t) :
    t.halted = true ↔ s.halted = true ∨ i = .hlt := by
  by_cases hi : i = .hlt
  · subst hi
    rw [exec_hlt] at ht
    cases ht
    simp
  · simp [exec_halted_of_ne_hlt hi ht, hi]

/-- From a state that differs in the halt flag only, an instruction answers one that differs in the halt flag only. -/
theorem exec_ignores_haltFlag {i : Instr} {s t : State} (h : Bool) (ht : exec i s = .next t) :
    ∃ u, exec i (s.withHaltFlag h) = .next u ∧ u.withHaltFlag t.halted = t := by
  by_cases hi : i = .hlt
  · subst hi
    rw [exec_hlt] at ht
    cases ht
    exact ⟨_, exec_hlt _, rfl⟩
  · exact ⟨t.withHaltFlag h, by rw [exec_withHaltFlag hi, ht]; rfl, rfl⟩

/-- A step leaves the halt flag set exactly when it fetches and runs a `HLT` (R16, R76). -/
theorem step_halted_iff {s t : State} (ht : step s = .next t) :
    t.halted = true ↔ CanFetch s ∧ decodeAtPc s = .ok .hlt := by
  have hs : s.halted = false := (step_next_running ht).2
  rcases step_next_cases ht with ⟨c, b, rfl, hno⟩ | ⟨hfetch, i, u, hdec, hexec, rfl⟩
  · simp [hs, hno]
  · simp [exec_halted_iff hexec, hs, hfetch, hdec]

theorem step_ne_next_of_halted {s : State} (hs : s.halted = true) (t : State) : step s ≠ .next t := fun ht => by
  simp [(step_next_running ht).2] at hs

/-- Settles O44: every instruction but `HLT` commutes with setting the halt flag, so it neither writes nor reads it. -/
theorem haltFlagOnlyFromHlt : Obligations.HaltFlagOnlyFromHlt :=
  ⟨rfl, fun _ _ _ => exec_halted_iff, fun _ _ => step_halted_iff, fun _ _ _ h => exec_ignores_haltFlag h,
    fun _ => step_ne_next_of_halted⟩

/-- Settles O55: the run state is Running because reset leaves no fault and the halt flag false. -/
theorem resetProgramCounterAndRunState : Obligations.ResetProgramCounterAndRunState :=
  ⟨rfl, (runState_running _).2 ⟨rfl, rfl⟩, rfl⟩

end Sys2Proof.Machine
end

section
/-! PROOFS. What dispatch makes of each of the 256 opcode bytes (R56, R73): O32. -/

namespace Sys2Proof

/-- The dispatch table bit 5 of `ir` selects (R73). -/
def dispatchTable (ir : Byte) : List OpcodeRow := if aluBit ir then aluTable else handlerTable

/-- The rejection bit 5 of `ir` selects (R142, R143). -/
def rejectKind (ir : Byte) : DecodeReject := if aluBit ir then .unsupportedAlu else .unregistered

/-- Both branches of the decoder are one lookup, in the table bit 5 selects. -/
theorem decode_eq_lookupOpcode (ir op1 op2 : Byte) :
    decode ir op1 op2 = (lookupOpcode (dispatchTable ir) ir op1 op2).elim (.error (rejectKind ir)) .ok := by
  cases h : aluBit ir with
  | true =>
    simp only [decode, dispatchTable, rejectKind, h, if_true]
    cases lookupOpcode aluTable ir op1 op2 <;> rfl
  | false =>
    simp only [decode, dispatchTable, rejectKind, h, Bool.false_eq_true, if_false]
    cases lookupOpcode handlerTable ir op1 op2 <;> rfl

theorem lookupOpcode_eq_none_iff {rows : List OpcodeRow} {ir op1 op2 : Byte} :
    lookupOpcode rows ir op1 op2 = none ↔ ∀ row ∈ rows, row.1 ≠ ir := by
  constructor
  · intro hnone row hrow hir
    obtain ⟨i, hi⟩ := lookupOpcode_isSome rows ir op1 op2 ⟨row, hrow, hir⟩
    exact nomatch hnone.symm.trans hi
  · intro hno
    refine Option.eq_none_iff_forall_ne_some.2 fun i hi => ?_
    obtain ⟨row, hrow, hir, -⟩ := lookupOpcode_mem rows ir op1 op2 i hi
    exact hno row hrow hir

/-- A row's instruction has the row's opcode. -/
theorem opcodeOf_row {ir : Byte} {row : OpcodeRow} (hrow : row ∈ dispatchTable ir) (op1 op2 : Byte) :
    opcodeOf (row.2 op1 op2) = row.1 := by
  revert row
  rw [dispatchTable]
  split
  · simp [aluTable]
  · simp [handlerTable]

/-- Bit 5 of an opcode is ALU membership (R55). -/
theorem aluBit_opcodeOf (i : Instr) : aluBit (opcodeOf i) = Laws.Fields.isAlu i := by
  cases i <;> simp <;> rfl

/-- Every instruction has a row in the table bit 5 of its opcode selects (R55). -/
theorem exists_row_of_instr (i : Instr) : ∃ row ∈ dispatchTable (opcodeOf i), row.1 = opcodeOf i := by
  rw [dispatchTable, aluBit_opcodeOf]
  cases i <;> simp [Laws.Fields.isAlu, aluTable, handlerTable]

theorem opcodeOf_of_decode_eq_ok {ir op1 op2 : Byte} {i : Instr} (h : decode ir op1 op2 = .ok i) : opcodeOf i = ir := by
  rw [decode_eq_lookupOpcode] at h
  rcases hl : lookupOpcode (dispatchTable ir) ir op1 op2 with _ | j <;> rw [hl] at h <;> cases h
  obtain ⟨row, hrow, rfl, rfl⟩ := lookupOpcode_mem _ _ _ _ _ hl
  exact opcodeOf_row hrow op1 op2

/-- Dispatch rejects exactly the bytes with no row, whatever the operand bytes are. -/
theorem decode_eq_error_iff {ir op1 op2 : Byte} {e : DecodeReject} :
    decode ir op1 op2 = .error e ↔ rejectKind ir = e ∧ ∀ row ∈ dispatchTable ir, row.1 ≠ ir := by
  rw [decode_eq_lookupOpcode, ← lookupOpcode_eq_none_iff (op1 := op1) (op2 := op2)]
  cases lookupOpcode (dispatchTable ir) ir op1 op2 <;> simp

theorem opcodeOf_ne_of_decode_eq_error {ir op1 op2 : Byte} {e : DecodeReject} (h : decode ir op1 op2 = .error e)
    (i : Instr) : opcodeOf i ≠ ir := by
  rintro rfl
  obtain ⟨row, hrow, hop⟩ := exists_row_of_instr i
  exact (decode_eq_error_iff.1 h).2 row hrow hop

/-- How many of the 256 bytes dispatch rejects as `e`, counted over the tables: the operand bytes play no part. -/
theorem rejectedBytes_length (e : DecodeReject) (op1 op2 : Byte) :
    ((List.range 256).filter fun n => decide (decode (BitVec.ofNat 8 n) op1 op2 = .error e)).length =
      ((List.range 256).filter fun n => decide (rejectKind (BitVec.ofNat 8 n) = e ∧
        ∀ row ∈ dispatchTable (BitVec.ofNat 8 n), row.1 ≠ BitVec.ofNat 8 n)).length := by
  simp only [decode_eq_error_iff]

/-- Settles O32: dispatch rejects a byte exactly when it has no row, and the bytes with a row are the opcodes. -/
theorem everyByteIsOpcodeOrFaults : Obligations.EveryByteIsOpcodeOrFaults := by
  refine ⟨fun ir op1 op2 => ?_, fun op1 op2 => ⟨?_, ?_⟩⟩
  · rcases h : decode ir op1 op2 with e | i
    · obtain ⟨rfl, -⟩ := decode_eq_error_iff.1 h
      exact .inr ⟨opcodeOf_ne_of_decode_eq_error h, rfl⟩
    · exact .inl ⟨i, rfl, opcodeOf_of_decode_eq_ok h⟩
  · rw [rejectedBytes_length]; rfl
  · rw [rejectedBytes_length]; rfl

end Sys2Proof
end

section
/-! SUPPORT. When an instruction faults: on a register-index byte above 7 (R74), on a divisor of 0 (R145), and in no other
case. -/

namespace Sys2Proof.Machine

@[simp] theorem advance_fault (ir : Byte) (s : State) : (s.advance ir).fault = s.fault := by
  rw [State.advance]; split <;> rfl

@[simp] theorem countCycle_fault (s : State) : s.countCycle.fault = s.fault := by
  rw [State.countCycle]; split <;> rfl

/-- An answer to `s` that takes no fault: a next state with the fault record of `s`. -/
def Completes (s : State) (r : Result) : Prop := ∃ t, r = .next t ∧ t.fault = s.fault

theorem finish_completes (ir : Byte) {s u : State} (h : u.fault = s.fault) : Completes s (finish ir u) :=
  ⟨u.advance ir, rfl, by rw [advance_fault, h]⟩

theorem exists_regByte {o : Byte} (h : o.toNat ≤ 7) : ∃ r, o = regByte r :=
  ⟨⟨o.toNat, by omega⟩, BitVec.eq_of_toNat_eq (regByte_toNat ⟨o.toNat, by omega⟩).symm⟩

section OperandBytes

variable {ir o o1 o2 : Byte} {s : State}

theorem withReg_of_not_legal {k : Fin 8 → Result} (h : ¬∀ x ∈ [o], x.toNat ≤ 7) :
    withReg ir o s k = .next (s.takeFault .registerIndex (some ir)) :=
  withReg_high ir o s k (by simpa using h)

theorem withRegs_of_not_legal {k : Fin 8 → Fin 8 → Result} (h : ¬∀ x ∈ [o1, o2], x.toNat ≤ 7) :
    withRegs ir o1 o2 s k = .next (s.takeFault .registerIndex (some ir)) := by
  rcases withRegs_cases ir o1 o2 s k with ⟨a, b, rfl, rfl, -⟩ | ⟨-, e⟩
  · simp [regByte_toNat, Nat.le_of_lt_succ] at h
  · exact e

theorem withReg_completes {k : Fin 8 → Result} (hk : ∀ r, Completes s (k r)) (h : ∀ x ∈ [o], x.toNat ≤ 7) :
    Completes s (withReg ir o s k) := by
  obtain ⟨r, rfl⟩ := exists_regByte (h o (by simp))
  rw [withReg_regByte]
  exact hk r

theorem withRegs_completes {k : Fin 8 → Fin 8 → Result} (hk : ∀ a b, Completes s (k a b))
    (h : ∀ x ∈ [o1, o2], x.toNat ≤ 7) : Completes s (withRegs ir o1 o2 s k) := by
  obtain ⟨a, rfl⟩ := exists_regByte (h o1 (by simp))
  obtain ⟨b, rfl⟩ := exists_regByte (h o2 (by simp))
  rw [withRegs_regByte]
  exact hk a b

end OperandBytes

/-- An instruction with a register-index byte above 7 raises RegisterIndexFault, before any effect (R74, R144). -/
theorem exec_of_not_wellFormed {i : Instr} (s : State) (hi : ¬i.WellFormed) :
    exec i s = .next (s.takeFault .registerIndex (some (opcodeOf i))) := by
  cases i with
  | hlt | ret => exact absurd nofun hi
  | push r | pop r | prn r | pra r | call r | jmp r | jeq r | jne r | jgt r | jlt r | jle r | jge r | not r | ldi r v =>
    exact withReg_of_not_legal hi
  | ld a b | st a b | add a b | mul a b | mod a b | cmp a b | and a b | or a b | xor a b | shl a b | shr a b =>
    exact withRegs_of_not_legal hi

theorem exec_mod_regByte (a b : Fin 8) (s : State) :
    exec (.mod (regByte a) (regByte b)) s =
      if s.readReg b = 0x00#8 then .next (s.takeFault .arithmetic (some Opcode.mod))
      else finish Opcode.mod (s.writeReg a (aluMod (s.readReg a) (s.readReg b))) :=
  withRegs_regByte ..

/-- An instruction whose register-index bytes are legal completes, unless it is a `MOD` by a register that holds 0, which
raises ArithmeticFault (R145). -/
theorem exec_of_wellFormed {i : Instr} (s : State) (hi : i.WellFormed) :
    Completes s (exec i s) ∨
    ∃ a b, i = .mod (regByte a) (regByte b) ∧ s.readReg b = 0x00#8 ∧
      exec i s = .next (s.takeFault .arithmetic (some Opcode.mod)) := by
  cases i with
  | hlt | ret => exact .inl (finish_completes _ rfl)
  | push r | pop r | prn r | pra r | call r | jmp r | jeq r | jne r | jgt r | jlt r | jle r | jge r | not r | ldi r v =>
    exact .inl (withReg_completes (fun _ => finish_completes _ rfl) hi)
  | ld a b | st a b | add a b | mul a b | cmp a b | and a b | or a b | xor a b | shl a b | shr a b =>
    exact .inl (withRegs_completes (fun _ _ => finish_completes _ rfl) hi)
  | mod o1 o2 =>
    obtain ⟨a, rfl⟩ := exists_regByte (hi o1 (by simp [Instr.regOperands]))
    obtain ⟨b, rfl⟩ := exists_regByte (hi o2 (by simp [Instr.regOperands]))
    rw [exec_mod_regByte]
    by_cases hz : s.readReg b = 0x00#8
    · exact .inr ⟨a, b, rfl, hz, if_pos hz⟩
    · exact .inl (if_neg hz ▸ finish_completes _ rfl)

/-- A fault that an instruction raises is the index fault when a register-index byte is above 7, the arithmetic one
otherwise (R74, R81). -/
theorem exec_fault_cause {i : Instr} {s t : State} {r : FaultRecord} (hs : s.fault = none) (ht : exec i s = .next t)
    (hr : t.fault = some r) : r.cause = if i.WellFormed then .arithmetic else .registerIndex := by
  by_cases hi : i.WellFormed
  · rw [if_pos hi]
    rcases exec_of_wellFormed s hi with ⟨u, hu, hkeep⟩ | ⟨a, b, -, -, hmod⟩
    · cases ht.symm.trans hu
      simp [hkeep, hs] at hr
    · cases ht.symm.trans hmod
      cases hr; rfl
  · rw [if_neg hi]
    cases ht.symm.trans (exec_of_not_wellFormed s hi)
    cases hr; rfl

end Sys2Proof.Machine
end

section
/-! PROOFS. The cycle (40_engine_cycle.md): the order of the fault checks (R81) and the terminal states (R77): O40, O42. -/

namespace Sys2Proof.Machine

/-- Settles O40: the cycle makes its checks in the order of R81, and the instruction it runs makes the index check before
the arithmetic one. -/
theorem faultPriorityOrder : Obligations.FaultPriorityOrder := by
  intro s t r ht hr
  have hs : s.fault = none := (step_next_running ht).1
  have hcycle := (engineStep_next s t ht).2
  rcases cycle_cases s with ⟨hb, e⟩ | ⟨hb, hp, e⟩ | ⟨hb, hp, c, hd, e⟩ | ⟨hb, hp, i, hd, e⟩ <;> rw [e] at hcycle
  · cases hcycle; cases hr
    simp [hb]
  · cases hcycle; cases hr
    simp [hb, hp]
  · cases hcycle; cases hr
    simp only [hb, hp.not_gt, hd, if_false]
    cases c <;> rfl
  · rw [afterExec_eq_mapNext, mapNext_eq_next] at hcycle
    obtain ⟨u, hu, rfl⟩ := hcycle
    simpa only [hb, hp.not_gt, hd, if_false] using exec_fault_cause hs hu ((countCycle_fault u).symm.trans hr)

theorem step_of_halted {s : State} (hs : s.runState = .halted) : step s = .fault .halted := by
  rw [step, engineStep, hs]

theorem step_of_faulted {s : State} (hs : s.runState = .faulted) : step s = .fault .faulted := by
  rw [step, engineStep, hs]

theorem step_of_not_running {s : State} (hs : s.runState ≠ .running) : ∃ f, step s = .fault f := by
  cases h : s.runState with
  | running => exact absurd h hs
  | halted => exact ⟨_, step_of_halted h⟩
  | faulted => exact ⟨_, step_of_faulted h⟩

/-- A run stays in a state that has no next one. -/
theorem run_of_step_fault {s : State} {f : Fault} (h : step s = .fault f) (k : Nat) : run k s = s := by
  cases k with
  | zero => rfl
  | succ k => rw [run, h]

/-- Settles O42: a state that is not Running is Halted or Faulted, and the step of either is its own stop. -/
theorem terminalStatesTakeNoStep : Obligations.TerminalStatesTakeNoStep := by
  refine ⟨fun _ => step_of_halted, fun _ => step_of_faulted, fun s hs => ?_⟩
  obtain ⟨f, hf⟩ := step_of_not_running hs
  exact ⟨fun _ ht => (nomatch hf.symm.trans ht), run_of_step_fault hf⟩

end Sys2Proof.Machine
end

section
/-! SUPPORT. What an ALU instruction leaves unchanged (R90), what its index fault is (R74), and the bits of `NOT` (R96). -/

namespace Sys2Proof.Machine

/-- A write of one register and of `pc` changes nothing else. -/
theorem onlyRegsChange_writeReg_setPc (s : State) (a : Fin 8) (v : Byte) (p : PcWord) :
    OnlyRegsChange [a] s ((s.writeReg a v).setPc p) := by
  refine ⟨fun i hi => ?_, rfl, fun _ => rfl, rfl, rfl, rfl, rfl⟩
  rw [setPc_readReg, writeReg_readReg, if_neg (List.mem_singleton.not.1 hi)]

theorem writeReg_setPc_readReg_same (s : State) (a : Fin 8) (v : Byte) (p : PcWord) :
    ((s.writeReg a v).setPc p).readReg a = v := by
  rw [setPc_readReg, writeReg_readReg, if_pos rfl]

theorem withRegs_high (ir o1 o2 : Byte) (s : State) (k : Fin 8 → Fin 8 → Result) (h : 7 < o1.toNat ∨ 7 < o2.toNat) :
    withRegs ir o1 o2 s k = .next (s.takeFault .registerIndex (some ir)) :=
  withRegs_of_not_legal (by simpa [imp_iff_not_or] using h)

theorem aluNot_eq_not (x : Byte) : aluNot x = ~~~x :=
  BitVec.eq_of_toNat_eq (by rw [aluNot_toNat, BitVec.toNat_not])

theorem aluNot_getLsbD (x : Byte) {k : Nat} (hk : k < 8) : (aluNot x).getLsbD k = !x.getLsbD k := by
  simp [aluNot_eq_not, hk]

/-- `aluBinary` of two registers, for an opcode whose length is 3 (R75, R90). -/
theorem aluBinary_regByte {ir : Byte} (hfinish : ∀ s, finish ir s = .next (s.setPc (s.pc + 3#9)))
    (f : Byte → Byte → Byte) (a b : Fin 8) (s : State) :
    aluBinary ir f (regByte a) (regByte b) s =
      .next ((s.writeReg a (f (s.readReg a) (s.readReg b))).setPc (s.pc + 3#9)) :=
  (withRegs_regByte ..).trans (hfinish _)

/-- A three-byte instruction that is `aluBinary` of `f`: its encoding, its result and frame for register operands, and its
index fault. `Rel x y v` says how the result `v` depends on the operands `x` and `y`, both read before the write (R90 a). -/
theorem aluBinary_meets {i : Byte → Byte → Instr} {op : Byte} {f : Byte → Byte → Byte} (Rel : Byte → Byte → Byte → Prop)
    (hencode : ∀ a b, encode (i a b) = [op, a, b]) (hexec : ∀ a b s, exec (i a b) s = aluBinary op f a b s)
    (hfinish : ∀ s, finish op s = .next (s.setPc (s.pc + 3#9))) (hf : ∀ x y, Rel x y (f x y)) :
    (∀ a b, encode (i a b) = [op, a, b]) ∧
    (∀ (s : State) (a b : Fin 8), ∃ t, exec (i (regByte a) (regByte b)) s = .next t ∧
      Rel (s.readReg a) (s.readReg b) (t.readReg a) ∧ OnlyRegsChange [a] s t ∧ t.pc = s.pc + 3#9) ∧
    (∀ (s : State) (a b : Byte), 7 < a.toNat ∨ 7 < b.toNat →
      exec (i a b) s = .next { s with fault := some ⟨.registerIndex, s.pc, some op⟩ }) := by
  refine ⟨hencode, fun s a b => ⟨_, (hexec ..).trans (aluBinary_regByte hfinish f a b s), ?_,
    onlyRegsChange_writeReg_setPc .., rfl⟩, fun s a b h => (hexec ..).trans (withRegs_high _ _ _ _ _ h)⟩
  rw [writeReg_setPc_readReg_same]
  exact hf ..

end Sys2Proof.Machine
end

section
/-! PROOFS. The ALU instructions that write their first operand register (R91 to R99): O15, O19, O20, O21, O23 to O27. -/

namespace Sys2Proof.Machine

/-- Settles O19: ADD is `aluBinary` of the sum truncated once. -/
theorem addWritesSumModulo256 : Obligations.AddWritesSumModulo256 :=
  aluBinary_meets (fun x y v => v.toNat = (x.toNat + y.toNat) % 256)
    (fun _ _ => rfl) (fun _ _ _ => rfl) finish_add aluAdd_toNat

/-- Settles O20: MUL is `aluBinary` of the product truncated once. -/
theorem mulWritesLowProductByte : Obligations.MulWritesLowProductByte :=
  aluBinary_meets (fun x y v => v.toNat = (x.toNat * y.toNat) % 256)
    (fun _ _ => rfl) (fun _ _ _ => rfl) finish_mul aluMul_toNat

/-- Settles O23: AND is `aluBinary` of the bit vectors' and. -/
theorem andWritesBitwiseAnd : Obligations.AndWritesBitwiseAnd :=
  aluBinary_meets (fun x y v => ∀ k < 8, v.getLsbD k = (x.getLsbD k && y.getLsbD k))
    (fun _ _ => rfl) (fun _ _ _ => rfl) finish_and fun _ _ _ _ => BitVec.getLsbD_and

/-- Settles O24: OR is `aluBinary` of the bit vectors' or. -/
theorem orWritesBitwiseOr : Obligations.OrWritesBitwiseOr :=
  aluBinary_meets (fun x y v => ∀ k < 8, v.getLsbD k = (x.getLsbD k || y.getLsbD k))
    (fun _ _ => rfl) (fun _ _ _ => rfl) finish_or fun _ _ _ _ => BitVec.getLsbD_or

/-- Settles O25: XOR is `aluBinary` of the bit vectors' exclusive or. -/
theorem xorWritesBitwiseXor : Obligations.XorWritesBitwiseXor :=
  aluBinary_meets (fun x y v => ∀ k < 8, v.getLsbD k = (x.getLsbD k ^^ y.getLsbD k))
    (fun _ _ => rfl) (fun _ _ _ => rfl) finish_xor fun _ _ _ _ => BitVec.getLsbD_xor

/-- Settles O26: SHL is `aluBinary` of the product with a power of two, truncated once. -/
theorem shlMultipliesByPowerOfTwo : Obligations.ShlMultipliesByPowerOfTwo :=
  aluBinary_meets (fun x y v => v.toNat = (x.toNat * 2 ^ y.toNat) % 256)
    (fun _ _ => rfl) (fun _ _ _ => rfl) finish_shl aluShl_toNat

/-- Settles O27: SHR is `aluBinary` of the quotient by a power of two, which fits a byte. -/
theorem shrDividesByPowerOfTwo : Obligations.ShrDividesByPowerOfTwo :=
  aluBinary_meets (fun x y v => v.toNat = x.toNat / 2 ^ y.toNat)
    (fun _ _ => rfl) (fun _ _ _ => rfl) finish_shr aluShr_toNat

/-- `NOT` of a register (R96) is two bytes long (decision D16). -/
theorem exec_not_regByte (a : Fin 8) (s : State) :
    exec (.not (regByte a)) s = .next ((s.writeReg a (aluNot (s.readReg a))).setPc (s.pc + 2#9)) :=
  (withReg_regByte ..).trans (finish_not _)

/-- Settles O15: `255 - x` has every bit of `x` inverted, and dispatch drops the byte after the operand. -/
theorem notComplementsRegister : Obligations.NotComplementsRegister := by
  refine ⟨fun _ => rfl, fun _ _ => rfl, fun s a => ⟨_, exec_not_regByte a s, ?_, fun k hk => ?_,
    onlyRegsChange_writeReg_setPc .., rfl⟩, fun s o h => withReg_high _ _ _ _ h⟩
  · rw [writeReg_setPc_readReg_same, aluNot_toNat]
  · rw [writeReg_setPc_readReg_same, aluNot_getLsbD _ hk]

/-- `MOD` by a divisor that is not 0 (R99). -/
theorem exec_mod_of_ne_zero (a b : Fin 8) (s : State) (hb : s.readReg b ≠ 0#8) :
    exec (.mod (regByte a) (regByte b)) s =
      .next ((s.writeReg a (aluMod (s.readReg a) (s.readReg b))).setPc (s.pc + 3#9)) := by
  rw [exec_mod_regByte, if_neg hb, finish_mod, writeReg_pc]

/-- `MOD` by a divisor of 0 (R145). -/
theorem exec_mod_of_eq_zero (a b : Fin 8) (s : State) (hb : s.readReg b = 0#8) :
    exec (.mod (regByte a) (regByte b)) s = .next (s.takeFault .arithmetic (some Opcode.mod)) := by
  rw [exec_mod_regByte, if_pos hb]

/-- Settles O21: the divisor decides between the remainder and ArithmeticFault, after the index check (R99, R145). -/
theorem modWritesRemainderOrFaults : Obligations.ModWritesRemainderOrFaults := by
  refine ⟨fun _ _ => rfl, fun s a b hb => ⟨_, exec_mod_of_ne_zero a b s hb, ?_, onlyRegsChange_writeReg_setPc .., rfl⟩,
    fun s a b hb => exec_mod_of_eq_zero a b s hb, fun s a b h => withRegs_high _ _ _ _ _ h⟩
  rw [writeReg_setPc_readReg_same, aluMod_toNat]

end Sys2Proof.Machine
end

section
/-! PROOFS. `CMP`, which writes the flags and no register (R100): O22. -/

namespace Sys2Proof.Machine

/-- Each flag is one of the three cases of the unsigned order (R100, decision D13), of which exactly one holds. -/
theorem compareFlags_eq (x y : Byte) :
    compareFlags x y =
      { e := decide (x.toNat = y.toNat), l := decide (x.toNat < y.toNat), g := decide (y.toNat < x.toNat) } := by
  rw [compareFlags]
  rcases lt_trichotomy x.toNat y.toNat with h | h | h
  · simp [h, h.ne, h.not_gt]
  · simp [h]
  · simp [h, h.ne', h.not_gt]

theorem exec_cmp_regByte (a b : Fin 8) (s : State) :
    exec (.cmp (regByte a) (regByte b)) s =
      .next ((s.setFlags (compareFlags (s.readReg a) (s.readReg b))).setPc (s.pc + 3#9)) :=
  (withRegs_regByte ..).trans (finish_cmp _)

/-- Settles O22: the flags are the three cases of the unsigned order, and nothing but them and `pc` is written. -/
theorem compareSetsExactlyOneFlag : Obligations.CompareSetsExactlyOneFlag := by
  refine ⟨fun _ _ => rfl, fun s a b => ⟨_, exec_cmp_regByte a b s, ?_, ?_, ?_, fun _ _ => rfl, fun _ => rfl, rfl,
    ⟨rfl, rfl, rfl⟩, rfl⟩, fun _ _ _ h => withRegs_high _ _ _ _ _ h⟩ <;>
  simp [compareFlags_eq]

end Sys2Proof.Machine
end

section
/-! SUPPORT. The stack (R110 to R114): `sp` after a decrement and an increment, and what a push and a pop write and leave
unchanged. -/

namespace Sys2Proof.Machine

theorem decSp_sp (s : State) : s.decSp.sp = s.sp - 1#8 := (decSp_readReg s spIndex).trans (if_pos rfl)

theorem incSp_sp (s : State) : s.incSp.sp = s.sp + 1#8 := (incSp_readReg s spIndex).trans (if_pos rfl)

/-- The increment is modulo 256 (decision D6). -/
theorem incSp_sp_toNat (s : State) : s.incSp.sp.toNat = (s.sp.toNat + 1) % 256 := by
  rw [incSp_sp, BitVec.toNat_add]; rfl

/-- A register read after the decrement is the new `sp` for register 7 (decision D26). -/
theorem decSp_readReg_eq_ite (s : State) (r : Fin 8) :
    s.decSp.readReg r = if r = 7 then s.decSp.sp else s.readReg r := by
  rw [decSp_sp, decSp_readReg]

theorem onlyRegsChange_incSp_setPc (s : State) (p : PcWord) : OnlyRegsChange [7] s (s.incSp.setPc p) :=
  onlyRegsChange_writeReg_setPc ..

/-- `v` pushed: `sp` goes down, then `v` is stored at the new `sp`; `PUSH` and `CALL` share it (R110, R112). -/
def State.pushByte (s : State) (v : Byte) : State := s.decSp.memWrite s.decSp.sp v

theorem pushByte_readReg (s : State) (v : Byte) (i : Fin 8) : (s.pushByte v).readReg i = s.decSp.readReg i := rfl

theorem pushByte_setPc_readReg_sp (s : State) (v : Byte) (p : PcWord) :
    ((s.pushByte v).setPc p).readReg 7 = s.decSp.sp := by
  rw [setPc_readReg, pushByte_readReg, State.sp]

theorem pushByte_cell_sp (s : State) (v : Byte) : (s.pushByte v).cell s.decSp.sp.toNat = v :=
  (memWrite_cell ..).trans (if_pos rfl)

theorem onlyRegsAndCellChange_pushByte_setPc (s : State) (v : Byte) (p : PcWord) :
    OnlyRegsAndCellChange [7] s.decSp.sp s ((s.pushByte v).setPc p) := by
  refine ⟨fun i hi => ?_, rfl, fun n hn => ?_, rfl, rfl, rfl, rfl⟩
  · rw [setPc_readReg, pushByte_readReg, decSp_readReg, if_neg (List.mem_singleton.not.1 hi)]
  · rw [setPc_cell, State.pushByte, memWrite_cell, if_neg hn, decSp_cell]

/-- Register `r` with the byte at the stack top, then `sp` up, as `POP` makes it (R111). -/
def State.popTo (s : State) (r : Fin 8) : State := (s.writeReg r (s.memRead s.sp)).incSp

/-- For a register other than 7 the increment sees the old `sp`. -/
theorem popTo_sp_of_ne (s : State) {r : Fin 8} (hr : r ≠ 7) :
    (s.popTo r).sp.toNat = (s.sp.toNat + 1) % 256 := by
  rw [State.popTo, incSp_sp_toNat, State.sp, writeReg_readReg, if_neg hr.symm, State.sp]

/-- For register 7 the increment sees the popped byte (decision D26). -/
theorem popTo_sp_self (s : State) : (s.popTo 7).sp.toNat = ((s.memRead s.sp).toNat + 1) % 256 := by
  rw [State.popTo, incSp_sp_toNat, State.sp, writeReg_readReg, if_pos rfl]

theorem popTo_readReg_self (s : State) {r : Fin 8} (hr : r ≠ 7) : (s.popTo r).readReg r = s.memRead s.sp := by
  rw [State.popTo, incSp_readReg, if_neg hr, writeReg_readReg, if_pos rfl]

theorem onlyRegsChange_popTo_setPc (s : State) (r : Fin 8) (p : PcWord) :
    OnlyRegsChange [r, 7] s ((s.popTo r).setPc p) := by
  refine ⟨fun i hi => ?_, rfl, fun _ => rfl, rfl, rfl, rfl, rfl⟩
  obtain ⟨hir, hi7⟩ : i ≠ r ∧ i ≠ 7 := by simpa using hi
  rw [setPc_readReg, State.popTo, incSp_readReg, if_neg hi7, writeReg_readReg, if_neg hir]

/-- Under the fetch condition the return address fits a byte (R112). -/
theorem returnAddress_toNat {s : State} (hpc : s.pc.toNat ≤ 253) : (returnAddress s).toNat = s.pc.toNat + 2 := by
  rw [returnAddress, trunc8_toNat]; omega

end Sys2Proof.Machine
end

section
/-! PROOFS. `PUSH`, `POP`, `CALL` and `RET` (42_stack_subroutine.md): O2, O3, O4, O7. -/

namespace Sys2Proof.Machine

theorem exec_push_regByte (r : Fin 8) (s : State) :
    exec (.push (regByte r)) s = .next ((s.pushByte (s.decSp.readReg r)).setPc (s.pc + 2#9)) :=
  (withReg_regByte ..).trans (finish_push _)

theorem exec_pop_regByte (r : Fin 8) (s : State) :
    exec (.pop (regByte r)) s = .next ((s.popTo r).setPc (s.pc + 2#9)) :=
  (withReg_regByte ..).trans (finish_pop _)

theorem exec_call_regByte (r : Fin 8) (s : State) :
    exec (.call (regByte r)) s = .next ((s.pushByte (returnAddress s)).setPc (zext9 (s.decSp.readReg r))) :=
  (withReg_regByte ..).trans (finish_call _)

theorem exec_ret (s : State) : exec .ret s = .next (s.incSp.setPc (zext9 (s.memRead s.sp))) := finish_ret _

/-- Settles O2: RET is the increment of `sp` and a write of `pc`, which takes the byte at the old `sp`. -/
theorem returnPopsProgramCounter : Obligations.ReturnPopsProgramCounter :=
  ⟨rfl, fun _ _ => rfl, fun s => ⟨_, exec_ret s, zext9_toNat _, incSp_sp_toNat s, onlyRegsChange_incSp_setPc ..⟩⟩

/-- Settles O3: PUSH is a push of the register as the decremented state reads it. -/
theorem pushStoresBelowStackPointer : Obligations.PushStoresBelowStackPointer := by
  refine ⟨fun _ => rfl, fun s r => ⟨_, exec_push_regByte r s, decSp_sp s, pushByte_setPc_readReg_sp .., ?_,
    onlyRegsAndCellChange_pushByte_setPc .., rfl⟩, fun _ _ h => withReg_high _ _ _ _ h⟩
  rw [setPc_cell, pushByte_cell_sp, decSp_readReg_eq_ite]

/-- Settles O4: POP writes the register and then increments `sp`; `r = 7` decides which `sp` the increment sees. -/
theorem popLoadsFromStackPointer : Obligations.PopLoadsFromStackPointer := by
  refine ⟨fun _ => rfl, fun s r => ⟨_, exec_pop_regByte r s, fun hr => ⟨popTo_readReg_self s hr, popTo_sp_of_ne s hr⟩, ?_,
    onlyRegsChange_popTo_setPc .., rfl⟩, fun _ _ h => withReg_high _ _ _ _ h⟩
  rintro rfl
  exact popTo_sp_self s

/-- Settles O7: CALL is a push of the return address and a jump to the register as the decremented state reads it. -/
theorem callPushesReturnAddress : Obligations.CallPushesReturnAddress := by
  refine ⟨fun _ => rfl, fun s r hpc => ⟨_, exec_call_regByte r s, decSp_sp s, pushByte_setPc_readReg_sp .., ?_, ?_,
    onlyRegsAndCellChange_pushByte_setPc ..⟩, fun _ _ h => withReg_high _ _ _ _ h⟩
  · rw [setPc_cell, pushByte_cell_sp, returnAddress_toNat hpc]
  · rw [setPc_pc, zext9_toNat, decSp_readReg_eq_ite]

end Sys2Proof.Machine
end

section
/-! SUPPORT. What the jumps share (R120, R127): a write of `pc` and no other change, the condition of each conditional jump
as a statement about the flags, and the index fault (R74). -/

namespace Sys2Proof.Machine

/-- A write of `pc` changes nothing else. -/
theorem onlyRegsChange_setPc (s : State) (p : PcWord) : OnlyRegsChange [] s (s.setPc p) :=
  ⟨fun _ _ => rfl, rfl, fun _ => rfl, rfl, rfl, rfl, rfl⟩

theorem condNe_iff (f : Flags) : condNe f = true ↔ f.e = false := by rw [condNe, Bool.not_eq_true']

theorem condLe_iff (f : Flags) : condLe f = true ↔ f.l = true ∨ f.e = true := Bool.or_eq_true_iff

theorem condGe_iff (f : Flags) : condGe f = true ↔ f.g = true ∨ f.e = true := Bool.or_eq_true_iff

section ConditionalJump

variable {op : Byte} (hfinish : ∀ s, finish op s = .next s)
include hfinish

/-- A taken jump on a register writes the register's value into `pc` (R127). -/
theorem jumpIf_regByte_taken (r : Fin 8) (s : State) :
    jumpIf op true (regByte r) s = .next (s.setPc (zext9 (s.readReg r))) :=
  (withReg_regByte ..).trans (hfinish _)

/-- A jump on a register that is not taken writes `pc + 2` itself (R127). -/
theorem jumpIf_regByte_not_taken (r : Fin 8) (s : State) :
    jumpIf op false (regByte r) s = .next (s.setPc (s.pc + 2#9)) :=
  (withReg_regByte ..).trans (hfinish _)

/-- An instruction that is `jumpIf` of the flag condition `cond`: its encoding, both branches with their frame, and its
index fault. `Taken` says of the flags what `cond` tests. -/
theorem jumpIf_meets {i : Byte → Instr} (cond : Flags → Bool) (Taken : Flags → Prop)
    (hencode : ∀ o, encode (i o) = [op, o]) (hexec : ∀ o s, exec (i o) s = jumpIf op (cond s.flags) o s)
    (hcond : ∀ f, cond f = true ↔ Taken f) :
    (∀ o, encode (i o) = [op, o]) ∧
    (∀ (s : State) (r : Fin 8), ∃ t, exec (i (regByte r)) s = .next t ∧
      (Taken s.flags → t.pc.toNat = (s.readReg r).toNat) ∧ (¬(Taken s.flags) → t.pc = s.pc + 2#9) ∧
      OnlyRegsChange [] s t) ∧
    (∀ (s : State) (o : Byte), 7 < o.toNat →
      exec (i o) s = .next { s with fault := some ⟨.registerIndex, s.pc, some op⟩ }) := by
  refine ⟨hencode, fun s r => ?_, fun s o h => (hexec ..).trans (withReg_high _ _ _ _ h)⟩
  rw [hexec, ← hcond]
  cases cond s.flags with
  | true =>
    exact ⟨_, jumpIf_regByte_taken hfinish r s, fun _ => zext9_toNat _, fun h => absurd rfl h, onlyRegsChange_setPc ..⟩
  | false => exact ⟨_, jumpIf_regByte_not_taken hfinish r s, nofun, fun _ => rfl, onlyRegsChange_setPc ..⟩

end ConditionalJump

end Sys2Proof.Machine
end

section
/-! PROOFS. `JMP` and the six conditional jumps (43_jumps.md): O8 to O14. -/

namespace Sys2Proof.Machine

theorem exec_jmp_regByte (r : Fin 8) (s : State) :
    exec (.jmp (regByte r)) s = .next (s.setPc (zext9 (s.readReg r))) :=
  (withReg_regByte ..).trans (finish_jmp _)

/-- Settles O8: JMP is a write of `pc`, which the engine's advance leaves as it is (R75). -/
theorem jumpGoesToRegister : Obligations.JumpGoesToRegister :=
  ⟨fun _ => rfl, fun s r => ⟨_, exec_jmp_regByte r s, zext9_toNat _, onlyRegsChange_setPc ..⟩,
    fun _ _ h => withReg_high _ _ _ _ h⟩

/-- Settles O9: JEQ is `jumpIf` of E. -/
theorem jumpIfEqualTestsE : Obligations.JumpIfEqualTestsE :=
  jumpIf_meets finish_jeq condEq (fun f => f.e = true) (fun _ => rfl) (fun _ _ => rfl) fun _ => Iff.rfl

/-- Settles O10: JNE is `jumpIf` of the negated E, whatever L and G are. -/
theorem jumpIfNotEqualTestsE : Obligations.JumpIfNotEqualTestsE :=
  jumpIf_meets finish_jne condNe (fun f => f.e = false) (fun _ => rfl) (fun _ _ => rfl) condNe_iff

/-- Settles O11: JGT is `jumpIf` of G. -/
theorem jumpIfGreaterTestsG : Obligations.JumpIfGreaterTestsG :=
  jumpIf_meets finish_jgt condGt (fun f => f.g = true) (fun _ => rfl) (fun _ _ => rfl) fun _ => Iff.rfl

/-- Settles O12: JLT is `jumpIf` of L. -/
theorem jumpIfLessTestsL : Obligations.JumpIfLessTestsL :=
  jumpIf_meets finish_jlt condLt (fun f => f.l = true) (fun _ => rfl) (fun _ _ => rfl) fun _ => Iff.rfl

/-- Settles O13: JLE is `jumpIf` of L or E. -/
theorem jumpIfLessOrEqualTestsLOrE : Obligations.JumpIfLessOrEqualTestsLOrE :=
  jumpIf_meets finish_jle condLe (fun f => f.l = true ∨ f.e = true) (fun _ => rfl) (fun _ _ => rfl) condLe_iff

/-- Settles O14: JGE is `jumpIf` of G or E, not of the absence of L. -/
theorem jumpIfGreaterOrEqualTestsGOrE : Obligations.JumpIfGreaterOrEqualTestsGOrE :=
  jumpIf_meets finish_jge condGe (fun f => f.g = true ∨ f.e = true) (fun _ => rfl) (fun _ _ => rfl) condGe_iff

end Sys2Proof.Machine
end

section
/-! SUPPORT. The step of a running engine, by what it fetches (R71, R73, R141), and the Halted run state (R18). -/

namespace Sys2Proof.Machine

theorem runState_halted (s : State) : s.runState = .halted ↔ s.fault = none ∧ s.halted = true := by
  rcases h : s.fault with _ | r <;> cases hh : s.halted <;> simp [State.runState, h, hh]

theorem step_of_running {s : State} (hs : s.runState = .running) : step s = cycle s := by
  rw [step, engineStep, hs]

/-- A cycle that can fetch runs the instruction at `pc` and is then counted (R73, R153). -/
theorem step_of_decodeAtPc {s : State} {i : Instr} (hs : CanFetch s) (hd : decodeAtPc s = .ok i) :
    step s = afterExec (exec i s) := by
  obtain ⟨hrun, hb, hp⟩ := hs
  rw [step_of_running hrun]
  rcases cycle_cases s with ⟨hb', -⟩ | ⟨-, hp', -⟩ | ⟨-, -, e, hd', -⟩ | ⟨-, -, j, hd', hcycle⟩
  · exact absurd hb' hb
  · omega
  · exact nomatch hd.symm.trans hd'
  · cases hd.symm.trans hd'
    exact hcycle

/-- A fetch at 0xFE or above raises AddressRangeFault, whatever the byte at `pc` is (R71, decision D5). -/
theorem step_of_pc_high {s : State} (hrun : s.runState = .running) (hb : s.budget ≠ some 0) (hp : 253 < s.pc.toNat) :
    step s = .next (s.takeFault .addressRange (fetchFaultByte s)) := by
  rw [step_of_running hrun, cycle, if_neg hb, (fetch_eq_none s).2 hp]
  rfl

theorem fetchFaultByte_of_le {s : State} (hp : s.pc.toNat ≤ 255) : fetchFaultByte s = some (s.cell s.pc.toNat) :=
  if_pos hp

/-- A fetched `pc` has room for one more in 9 bits (R14). -/
theorem pc_add_one_toNat {s : State} (hp : s.pc.toNat ≤ 253) : (s.pc + 1#9).toNat = s.pc.toNat + 1 := by
  rw [BitVec.toNat_add]
  exact Nat.mod_eq_of_lt (by simp only [BitVec.toNat_ofNat]; omega)

end Sys2Proof.Machine
end

section
/-! PROOFS. `HLT` (R135): O1. -/

namespace Sys2Proof.Machine

theorem decode_hlt (op1 op2 : Byte) : decode 0x01#8 op1 op2 = .ok .hlt := rfl

/-- The state a fetched `HLT` steps to: halted, `pc` up by 1 (decision D18), and the cycle counted. -/
def State.afterHlt (s : State) : State := (s.setHalted.setPc (s.pc + 1#9)).countCycle

theorem afterHlt_eq {s : State} (hs : s.fault = none) :
    s.afterHlt = { s.setHalted.setPc (s.pc + 1#9) with budget := s.budget.map (· - 1) } :=
  countCycle_of_completed _ hs

theorem step_hlt {s : State} (hs : CanFetch s) (hir : s.cell s.pc.toNat = 0x01#8) : step s = .next s.afterHlt := by
  have hd : decodeAtPc s = .ok .hlt := by rw [decodeAtPc, hir, decode_hlt]
  rw [step_of_decodeAtPc hs hd, exec_hlt]
  rfl

theorem afterHlt_runState {s : State} (hs : s.fault = none) : s.afterHlt.runState = .halted := by
  rw [runState_halted, afterHlt_eq hs]
  exact ⟨hs, rfl⟩

theorem run_afterHlt {s : State} (hs : s.fault = none) (k : Nat) : run k s.afterHlt = s.afterHlt :=
  run_of_step_fault (step_of_halted (afterHlt_runState hs)) k

/-- Settles O1: a fetched HLT completes its cycle into the Halted state, which has no step; at 0xFE and 0xFF the fetch
faults before dispatch. -/
theorem haltSetsFlagAndAdvances : Obligations.HaltSetsFlagAndAdvances := by
  refine ⟨rfl, decode_hlt, fun s => ⟨_, exec_hlt s, rfl, rfl, fun _ _ => rfl, rfl, fun _ => rfl, rfl, rfl, rfl⟩,
    fun s hs hir => ?_, fun s hrun hb hpc hir => ?_⟩
  · have ⟨hrun, _, hp⟩ := hs
    obtain ⟨hfault, -⟩ := (runState_running s).1 hrun
    refine ⟨_, step_hlt hs hir, afterHlt_runState hfault, ?_, ?_, ?_, ?_, ?_, run_afterHlt hfault⟩ <;>
      rw [afterHlt_eq hfault]
    · exact pc_add_one_toNat hp
    · exact fun _ _ => rfl
    · rfl
    · exact fun _ => rfl
    · rfl
  · obtain ⟨hlow, hhigh⟩ : 253 < s.pc.toNat ∧ s.pc.toNat ≤ 255 := by rcases hpc with h | h <;> simp [h]
    rw [step_of_pc_high hrun hb hlow, fetchFaultByte_of_le hhigh, hir]
    rfl

end Sys2Proof.Machine
end

section
/-! PROOFS. `LDI`, `LD` and `ST` (R130 to R132): O16, O17, O18. -/

namespace Sys2Proof.Machine

theorem exec_ldi_regByte (r : Fin 8) (v : Byte) (s : State) :
    exec (.ldi (regByte r) v) s = .next ((s.writeReg r v).setPc (s.pc + 3#9)) :=
  (withReg_regByte ..).trans (finish_ldi _)

theorem exec_ld_regByte (a b : Fin 8) (s : State) :
    exec (.ld (regByte a) (regByte b)) s =
      .next ((s.writeReg a (s.memRead (s.readReg b))).setPc (s.pc + 3#9)) :=
  (withRegs_regByte ..).trans (finish_ld _)

theorem exec_st_regByte (r r2 : Fin 8) (s : State) :
    exec (.st (regByte r) (regByte r2)) s =
      .next ((s.memWrite (s.readReg r) (s.readReg r2)).setPc (s.pc + 3#9)) :=
  (withRegs_regByte ..).trans (finish_st _)

theorem exec_prn_regByte (r : Fin 8) (s : State) :
    exec (.prn (regByte r)) s = .next ((s.emit .num (s.readReg r)).setPc (s.pc + 2#9)) :=
  (withReg_regByte ..).trans (finish_prn _)

theorem memWrite_setPc_cell_same (s : State) (a v : Byte) (p : PcWord) :
    ((s.memWrite a v).setPc p).cell a.toNat = v := by
  rw [setPc_cell, memWrite_cell, if_pos rfl]

/-- A write of one cell and of `pc` changes nothing else. -/
theorem onlyRegsAndCellChange_memWrite_setPc (s : State) (a v : Byte) (p : PcWord) :
    OnlyRegsAndCellChange [] a s ((s.memWrite a v).setPc p) := by
  refine ⟨fun _ _ => rfl, rfl, fun n hn => ?_, rfl, rfl, rfl, rfl⟩
  rw [setPc_cell, memWrite_cell, if_neg hn]

/-- Settles O16: LDI is a write of the immediate to the register, which PRN then reads. -/
theorem loadImmediateWritesRegister : Obligations.LoadImmediateWritesRegister := by
  refine ⟨fun _ _ => rfl, fun s r v => ⟨_, exec_ldi_regByte r v s, writeReg_setPc_readReg_same ..,
    onlyRegsChange_writeReg_setPc .., rfl, _, exec_prn_regByte .., ?_⟩, fun _ _ _ h => withReg_high _ _ _ _ h⟩
  rw [setPc_out, emit_out, writeReg_setPc_readReg_same, setPc_out, writeReg_out]

/-- Settles O17: LD is a write of the byte the address register points at, read before the write. -/
theorem loadReadsThroughRegister : Obligations.LoadReadsThroughRegister :=
  ⟨fun _ _ => rfl, fun s a b => ⟨_, exec_ld_regByte a b s, writeReg_setPc_readReg_same ..,
    onlyRegsChange_writeReg_setPc .., rfl⟩, fun _ _ _ h => withRegs_high _ _ _ _ _ h⟩

/-- Settles O18: ST is a write of the cell the first register points at. -/
theorem storeWritesThroughRegister : Obligations.StoreWritesThroughRegister :=
  ⟨fun _ _ => rfl, fun s r r2 => ⟨_, exec_st_regByte r r2 s, memWrite_setPc_cell_same ..,
    onlyRegsAndCellChange_memWrite_setPc .., rfl⟩, fun _ _ _ h => withRegs_high _ _ _ _ _ h⟩

end Sys2Proof.Machine
end

section
/-! SUPPORT. What a faulting instruction and a faulting step did (R81, R146): the state before, with the record of one
cause; and when dispatch faults (R142, R143). -/

namespace Sys2Proof.Machine

@[simp] theorem takeFault_runState (s : State) (c : FaultCause) (b : Option Byte) :
    (s.takeFault c b).runState = .faulted := rfl

/-- An instruction that faults took the fault of a register-index byte above 7, or is a `MOD` by a register that holds 0
(R144, R145). -/
theorem exec_fault_cases {i : Instr} {s t : State} (hs : s.fault = none) (ht : exec i s = .next t)
    (hf : t.fault ≠ none) :
    (¬i.WellFormed ∧ t = s.takeFault .registerIndex (some (opcodeOf i))) ∨
    ((∃ a b, i = .mod (regByte a) (regByte b) ∧ s.readReg b = 0#8) ∧
      t = s.takeFault .arithmetic (some (opcodeOf i))) := by
  by_cases hi : i.WellFormed
  · rcases exec_of_wellFormed s hi with ⟨u, hu, hkeep⟩ | ⟨a, b, rfl, hz, hmod⟩
    · cases ht.symm.trans hu
      exact absurd (hkeep.trans hs) hf
    · cases ht.symm.trans hmod
      exact .inr ⟨⟨a, b, rfl, hz⟩, rfl⟩
  · cases ht.symm.trans (exec_of_not_wellFormed s hi)
    exact .inl ⟨hi, rfl⟩

/-- The opcode byte a cycle that starts in `s` dispatches on. -/
abbrev opcodeByte (s : State) : Byte := s.cell s.pc.toNat

/-- The cause dispatch records for a byte that is no opcode, by the byte's bit 5 (R142, R143). -/
def rejectCause : (bit5 : Bool) → FaultCause
  | false => .decode
  | true => .unsupportedAlu

theorem rejectCause_injective : rejectCause.Injective := by decide

theorem rejectCause_ne (bit5 : Bool) :
    rejectCause bit5 ≠ .budget ∧ rejectCause bit5 ≠ .addressRange ∧ rejectCause bit5 ≠ .registerIndex ∧
      rejectCause bit5 ≠ .arithmetic := by
  revert bit5; decide

theorem cause_of_decode_eq_error {ir op1 op2 : Byte} {e : DecodeReject} (h : decode ir op1 op2 = .error e) :
    DecodeReject.cause e = rejectCause (aluBit ir) := by
  rw [← (decode_eq_error_iff.1 h).1, rejectKind]
  cases aluBit ir <;> rfl

/-- A step that faults took one fault: of the budget, of the fetch, of dispatch, or of the instruction it ran. -/
theorem step_fault_cases {s t : State} (ht : step s = .next t) (hf : t.fault ≠ none) :
    ∃ c b, t = s.takeFault c b ∧
      ((c = .budget ∧ b = none) ∨
       (c = .addressRange ∧ b = fetchFaultByte s ∧ 253 < s.pc.toNat) ∨
       (c = rejectCause (aluBit (opcodeByte s)) ∧ b = some (opcodeByte s) ∧ ∀ i, opcodeOf i ≠ opcodeByte s) ∨
       ((c = .registerIndex ∨ c = .arithmetic) ∧ b = some (opcodeByte s))) := by
  have hs : s.fault = none := (step_next_running ht).1
  have hcycle := (engineStep_next s t ht).2
  rcases cycle_cases s with ⟨-, e⟩ | ⟨-, hp, e⟩ | ⟨-, -, c, hd, e⟩ | ⟨-, -, i, hd, e⟩ <;> rw [e] at hcycle
  · cases hcycle
    exact ⟨_, _, rfl, .inl ⟨rfl, rfl⟩⟩
  · cases hcycle
    exact ⟨_, _, rfl, .inr (.inl ⟨rfl, rfl, hp⟩)⟩
  · cases hcycle
    exact ⟨_, _, rfl, .inr (.inr (.inl ⟨cause_of_decode_eq_error hd, rfl, opcodeOf_ne_of_decode_eq_error hd⟩))⟩
  · rw [afterExec_eq_mapNext, mapNext_eq_next] at hcycle
    obtain ⟨u, hu, rfl⟩ := hcycle
    rw [countCycle_fault] at hf
    rw [countCycle_of_fault u hf]
    have hop : some (opcodeOf i) = some (opcodeByte s) := congrArg some (opcodeOf_of_decode_eq_ok hd)
    rcases exec_fault_cases hs hu hf with ⟨-, rfl⟩ | ⟨-, rfl⟩
    · exact ⟨_, _, rfl, .inr (.inr (.inr ⟨.inl rfl, hop⟩))⟩
    · exact ⟨_, _, rfl, .inr (.inr (.inr ⟨.inr rfl, hop⟩))⟩

/-- Dispatch of a byte that is no opcode raises the fault bit 5 selects (R142, R143). -/
theorem step_of_not_opcode {s : State} (hs : CanFetch s) (hno : ∀ i, opcodeOf i ≠ opcodeByte s) :
    step s = .next (s.takeFault (rejectCause (aluBit (opcodeByte s))) (some (opcodeByte s))) := by
  obtain ⟨hrun, hb, hp⟩ := hs
  rw [step_of_running hrun]
  rcases cycle_cases s with ⟨hb', -⟩ | ⟨-, hp', -⟩ | ⟨-, -, e, hd, hcycle⟩ | ⟨-, -, i, hd, -⟩
  · exact absurd hb' hb
  · omega
  · rw [hcycle, cause_of_decode_eq_error hd]
  · exact absurd (opcodeOf_of_decode_eq_ok hd) (hno i)

/-- A step that records a cause of dispatch dispatched on a byte that is no opcode, with the bit 5 of that cause. -/
theorem opcodeByte_of_rejectCause {s t : State} {r : FaultRecord} {bit5 : Bool} (ht : step s = .next t)
    (hr : t.fault = some r) (hc : r.cause = rejectCause bit5) :
    aluBit (opcodeByte s) = bit5 ∧ ∀ i, opcodeOf i ≠ opcodeByte s := by
  obtain ⟨hbudget, hrange, hindex, harith⟩ := rejectCause_ne bit5
  obtain ⟨c, b, rfl, hcase⟩ := step_fault_cases ht (by simp [hr])
  cases hr
  rcases hcase with ⟨h, -⟩ | ⟨h, -⟩ | ⟨h, -, hno⟩ | ⟨h | h, -⟩
  · exact absurd (hc.symm.trans h) hbudget
  · exact absurd (hc.symm.trans h) hrange
  · exact ⟨rejectCause_injective (h.symm.trans hc), hno⟩
  · exact absurd (hc.symm.trans h) hindex
  · exact absurd (hc.symm.trans h) harith

/-- The fault of dispatch for bytes whose bit 5 is `bit5`: when it is raised, what it changes, and that no other byte
raises it. -/
theorem rejectCause_meets (bit5 : Bool) :
    (∀ s : State, CanFetch s → (opcodeByte s).getLsbD 5 = bit5 → (∀ i, opcodeOf i ≠ opcodeByte s) →
      step s = .next { s with fault := some ⟨rejectCause bit5, s.pc, some (opcodeByte s)⟩ } ∧
      ∀ t, step s = .next t → t.runState = .faulted) ∧
    (∀ (s t : State) (r : FaultRecord), step s = .next t → t.fault = some r → r.cause = rejectCause bit5 →
      (opcodeByte s).getLsbD 5 = bit5 ∧ ∀ i, opcodeOf i ≠ opcodeByte s) := by
  refine ⟨?_, fun _ _ _ => opcodeByte_of_rejectCause⟩
  rintro s hs rfl hno
  have hstep := step_of_not_opcode hs hno
  refine ⟨hstep, fun t ht => ?_⟩
  cases ht.symm.trans hstep
  exact takeFault_runState ..

end Sys2Proof.Machine
end

section
/-! PROOFS. The fault causes (60_exceptions.md): O35 to O39 and O41. -/

namespace Sys2Proof.Machine

/-- Settles O35: a fetch at 254 or above faults before dispatch, and no other cause of a faulting step is
AddressRangeFault. -/
theorem fetchBeyondMemoryFaults : Obligations.FetchBeyondMemoryFaults := by
  refine ⟨fun _ hrun hb hp => step_of_pc_high hrun hb hp, fun s t r ht hr hc => ?_⟩
  obtain ⟨c, b, rfl, hcase⟩ := step_fault_cases ht (by simp [hr])
  cases hr
  cases hc
  rcases hcase with ⟨h, -⟩ | ⟨-, -, hp⟩ | ⟨h, -⟩ | ⟨h | h, -⟩
  · cases h
  · exact hp
  · obtain ⟨-, hrange, -⟩ := rejectCause_ne (aluBit (opcodeByte s))
    exact absurd h.symm hrange
  · cases h
  · cases h

/-- Settles O36: it is the fault dispatch raises for bit 5 clear. -/
theorem unregisteredOpcodeFaults : Obligations.UnregisteredOpcodeFaults := rejectCause_meets false

/-- Settles O37: it is the fault dispatch raises for bit 5 set. -/
theorem unsupportedAluOpcodeFaults : Obligations.UnsupportedAluOpcodeFaults := rejectCause_meets true

/-- Settles O38: an ill-formed instruction faults on its index byte, and a well-formed one has no other cause than the
arithmetic one. -/
theorem illFormedIndexFaults : Obligations.IllFormedIndexFaults :=
  ⟨fun _ s hi => exec_of_not_wellFormed s hi, fun _ _ _ _ hs ht hr hc hi =>
    nomatch hc.symm.trans ((exec_fault_cause hs ht hr).trans (if_pos hi))⟩

/-- Settles O39: a faulting instruction is ill-formed or a `MOD` by zero, and a `MOD` by zero takes this fault. -/
theorem arithmeticFaultOnlyFromModByZero : Obligations.ArithmeticFaultOnlyFromModByZero := by
  refine ⟨fun i s t r hs ht hr => ⟨fun hc => ?_, ?_⟩,
    fun s a b hb => ⟨_, exec_mod_of_eq_zero a b s hb, rfl, rfl, rfl, takeFault_runState ..⟩⟩
  · rcases exec_fault_cases hs ht (by simp [hr]) with ⟨-, rfl⟩ | ⟨hmod, -⟩
    · cases hr
      cases hc
    · exact hmod
  · rintro ⟨a, b, rfl, hb⟩
    cases ht.symm.trans (exec_mod_of_eq_zero a b s hb)
    cases hr
    rfl

/-- Settles O41: every faulting step is one `takeFault` of the state before it. -/
theorem faultingStepChangesOnlyTheRecord : Obligations.FaultingStepChangesOnlyTheRecord := by
  intro s t ht hf
  obtain ⟨c, b, rfl, hcase⟩ := step_fault_cases ht hf
  refine ⟨c, b, rfl, takeFault_runState .., ?_⟩
  rcases hcase with hbudget | ⟨hc, hb, -⟩ | ⟨rfl, hb, -⟩ | ⟨rfl | rfl, hb⟩
  · exact .inl hbudget
  · exact .inr (.inl ⟨hc, hb⟩)
  · obtain ⟨hbudget, hrange, -⟩ := rejectCause_ne (aluBit (opcodeByte s))
    exact .inr (.inr ⟨hbudget, hrange, hb⟩)
  · exact .inr (.inr ⟨nofun, nofun, hb⟩)
  · exact .inr (.inr ⟨nofun, nofun, hb⟩)

end Sys2Proof.Machine
end

section
/-! SUPPORT. What decoder and encoder have in common, row by row of the dispatch tables and instruction by instruction:
the operand count (R51), the length (R50), and that an encoding is read back (R54). -/

namespace Sys2Proof

/-- The operand count is the opcode byte's upper two bits, as a number (R51). -/
theorem operandCount_eq (ir : Byte) : operandCount ir = ir.toNat / 64 := by
  have := ir.isLt
  rw [operandCount, BitVec.extractLsb'_toNat, Nat.shiftRight_eq_div_pow]
  omega

/-- The opcode byte's fields agree with the instruction, for every instruction (R55). -/
theorem fields_statement : ∀ i, Laws.Fields.Statement i
  | .hlt => Laws.Fields.hlt
  | .ret => Laws.Fields.ret
  | .push r => Laws.Fields.push r
  | .pop r => Laws.Fields.pop r
  | .prn r => Laws.Fields.prn r
  | .pra r => Laws.Fields.pra r
  | .call r => Laws.Fields.call r
  | .jmp r => Laws.Fields.jmp r
  | .jeq r => Laws.Fields.jeq r
  | .jne r => Laws.Fields.jne r
  | .jgt r => Laws.Fields.jgt r
  | .jlt r => Laws.Fields.jlt r
  | .jle r => Laws.Fields.jle r
  | .jge r => Laws.Fields.jge r
  | .not r => Laws.Fields.not r
  | .ldi a b => Laws.Fields.ldi a b
  | .ld a b => Laws.Fields.ld a b
  | .st a b => Laws.Fields.st a b
  | .add a b => Laws.Fields.add a b
  | .mul a b => Laws.Fields.mul a b
  | .mod a b => Laws.Fields.mod a b
  | .cmp a b => Laws.Fields.cmp a b
  | .and a b => Laws.Fields.and a b
  | .or a b => Laws.Fields.or a b
  | .xor a b => Laws.Fields.xor a b
  | .shl a b => Laws.Fields.shl a b
  | .shr a b => Laws.Fields.shr a b

theorem encode_length (i : Instr) : (encode i).length = operandCount (opcodeOf i) + 1 := (fields_statement i).1

theorem setsPcBit_opcodeOf (i : Instr) : setsPcBit (opcodeOf i) = Laws.Fields.setsPc i := (fields_statement i).2.2

theorem encode_length_le (i : Instr) : (encode i).length ≤ 3 := by
  cases i <;> simp [encode]

/-- An encoding is read back from its bytes and whatever two bytes follow: evaluation of the dispatch table at each of the
27 opcodes (R54). -/
theorem decodeBytes_encode_append (i : Instr) (x y : Byte) : decodeBytes (encode i ++ [x, y]) = .ok i := by
  cases i <;> rfl

theorem encode_injective : encode.Injective := by
  intro i j hij
  have hi := decodeBytes_encode_append i 0#8 0#8
  rw [hij, decodeBytes_encode_append] at hi
  cases hi
  rfl

theorem opcodeOf_of_encode_eq_cons {i : Instr} {ir : Byte} {bs : List Byte} (h : encode i = ir :: bs) :
    opcodeOf i = ir := by
  rw [opcodeOf, h, List.headD_cons]

/-- A row's instruction is encoded as the row's opcode and as many of the operand bytes as the opcode counts (R50, R51). -/
theorem encode_row {ir : Byte} {row : OpcodeRow} (hrow : row ∈ dispatchTable ir) (op1 op2 : Byte) :
    encode (row.2 op1 op2) = [row.1, op1, op2].take (row.1.toNat / 64 + 1) := by
  revert row
  rw [dispatchTable]
  split
  · simp [aluTable, encode, Opcode.not, Opcode.add, Opcode.mul, Opcode.mod, Opcode.cmp, Opcode.and, Opcode.or, Opcode.xor,
      Opcode.shl, Opcode.shr]
  · simp [handlerTable, encode, Opcode.hlt, Opcode.ret, Opcode.push, Opcode.pop, Opcode.prn, Opcode.pra, Opcode.call,
      Opcode.jmp, Opcode.jeq, Opcode.jne, Opcode.jgt, Opcode.jlt, Opcode.jle, Opcode.jge, Opcode.ldi, Opcode.ld, Opcode.st]

theorem encode_of_decode_eq_ok {ir op1 op2 : Byte} {i : Instr} (h : decode ir op1 op2 = .ok i) :
    encode i = [ir, op1, op2].take (ir.toNat / 64 + 1) := by
  rw [decode_eq_lookupOpcode] at h
  rcases hl : lookupOpcode (dispatchTable ir) ir op1 op2 with _ | j <;> rw [hl] at h <;> cases h
  obtain ⟨row, hrow, rfl, rfl⟩ := lookupOpcode_mem _ _ _ _ _ hl
  exact encode_row hrow op1 op2

/-- Latches that begin with an encoding decode: their first byte is an opcode, and the instruction it gives has the same
encoding. -/
theorem decode_of_encode_eq {ir op1 op2 : Byte} {i : Instr}
    (h : encode i = [ir, op1, op2].take (ir.toNat / 64 + 1)) : decode ir op1 op2 = .ok i := by
  have hop : opcodeOf i = ir := opcodeOf_of_encode_eq_cons (h.trans List.take_succ_cons)
  rcases hd : decode ir op1 op2 with e | j
  · exact absurd hop (opcodeOf_ne_of_decode_eq_error hd i)
  · rw [encode_injective (h.trans (encode_of_decode_eq_ok hd).symm)]

theorem decode_eq_ok_iff (ir op1 op2 : Byte) (i : Instr) :
    decode ir op1 op2 = .ok i ↔ encode i = [ir, op1, op2].take (ir.toNat / 64 + 1) :=
  ⟨encode_of_decode_eq_ok, decode_of_encode_eq⟩

/-- Latches that agree on the bytes the opcode counts decode alike: a rejection reads the opcode byte only (R73), an
instruction the bytes of its encoding (R52). -/
theorem decode_congr {ir op1 op2 x y : Byte}
    (h : [ir, op1, op2].take (ir.toNat / 64 + 1) = [ir, x, y].take (ir.toNat / 64 + 1)) :
    decode ir op1 op2 = decode ir x y := by
  rcases hd : decode ir x y with e | i
  · exact decode_eq_error_iff.2 (decode_eq_error_iff.1 hd)
  · exact decode_of_encode_eq ((encode_of_decode_eq_ok hd).trans h.symm)

end Sys2Proof
end

section
/-! PROOFS. The encoding (30_encoding.md): O28 to O31. -/

namespace Sys2Proof

/-- Settles O29: a row's instruction is encoded by the row's opcode and the bytes it counts, and an encoding has one
instruction because it is read back. -/
theorem decodeIffEncodeIsPrefix : Obligations.DecodeIffEncodeIsPrefix := decode_eq_ok_iff

/-- Settles O28: each opcode byte leads to its own row. -/
theorem decodeOfEncodeIsTheInstruction : Obligations.DecodeOfEncodeIsTheInstruction := decodeBytes_encode_append

/-- Settles O30: evaluation of the dispatch table at each of the ten words. -/
theorem sampleWordsDecode : Obligations.SampleWordsDecode :=
  ⟨rfl, rfl, rfl, rfl, rfl, rfl, rfl, rfl, rfl, rfl⟩

/-- Settles O31: with an operand count of 0 or 1 the latches agree on the bytes the opcode counts. -/
theorem unusedOperandBytesIgnored : Obligations.UnusedOperandBytesIgnored :=
  fun _ _ _ _ _ => ⟨fun h => decode_congr (by rw [h]; rfl), fun h => decode_congr (by rw [h]; rfl)⟩

end Sys2Proof
end

section
/-! SUPPORT. What an instruction can do to the state, said once: the effect of each handler, before the engine's advance
(R75), and the two ways an instruction can end. The frame statements are derived from it. -/

namespace Sys2Proof.Machine

open Laws.Fields (setsPc)

/-! ### The advance and the count of the cycle change `pc` and the budget only. -/

/-- The advance is a write of `pc` (R75). -/
theorem advance_eq_setPc (s : State) (ir : Byte) : s.advance ir = s.setPc (s.advance ir).pc := by
  rw [State.advance]; split <;> rfl

/-- The count of the cycle is a write of the budget (R153). -/
theorem countCycle_eq (s : State) : s.countCycle = { s with budget := s.countCycle.budget } := by
  rw [State.countCycle]; split <;> rfl

section Advance

variable (s : State) (ir : Byte)

@[simp] theorem advance_flags : (s.advance ir).flags = s.flags := by rw [advance_eq_setPc, setPc_flags]
@[simp] theorem advance_out : (s.advance ir).out = s.out := by rw [advance_eq_setPc, setPc_out]
@[simp] theorem advance_mem : (s.advance ir).mem = s.mem := by rw [advance_eq_setPc, setPc_mem]
@[simp] theorem advance_budget : (s.advance ir).budget = s.budget := by rw [advance_eq_setPc, setPc_budget]
@[simp] theorem advance_readReg (j : Fin 8) : (s.advance ir).readReg j = s.readReg j := by
  rw [advance_eq_setPc, setPc_readReg]
@[simp] theorem advance_cell (n : Nat) : (s.advance ir).cell n = s.cell n := by rw [advance_eq_setPc, setPc_cell]

theorem advance_pc_of_setsPc (h : setsPcBit ir = true) : (s.advance ir).pc = s.pc := by rw [State.advance, if_pos h]

theorem advance_pc_of_not_setsPc (h : setsPcBit ir = false) :
    (s.advance ir).pc = s.pc + BitVec.ofNat 9 (operandCount ir + 1) := by
  rw [State.advance, h]; rfl

@[simp] theorem countCycle_pc : s.countCycle.pc = s.pc := by rw [countCycle_eq]
@[simp] theorem countCycle_flags : s.countCycle.flags = s.flags := by rw [countCycle_eq]
@[simp] theorem countCycle_out : s.countCycle.out = s.out := by rw [countCycle_eq]
@[simp] theorem countCycle_mem : s.countCycle.mem = s.mem := by rw [countCycle_eq]
@[simp] theorem countCycle_cell (n : Nat) : s.countCycle.cell n = s.cell n := by
  rw [State.cell, countCycle_mem, State.cell]

end Advance

/-! ### The effect of a handler -/

/-- `Effect s i u`: in state `s` the handler of `i`, its operand bytes legal and its divisor not 0, leaves `u` for the
engine's advance. What a general register write or a jump's write of `pc` puts there is left open: the frame statements do
not ask. -/
inductive Effect (s : State) : Instr → State → Prop
  /-- `NOT`, `LDI`, `LD` and the two-operand ALU instructions but `CMP` (R90 to R99, R130, R131). -/
  | writeReg {i : Instr} {a : Fin 8} (v : Byte) (ha : a ∈ writableRegs i) (hi : setsPc i = false) :
    Effect s i (s.writeReg a v)
  /-- `CMP` (R100). -/
  | compare (a b : Fin 8) :
    Effect s (.cmp (regByte a) (regByte b)) (s.setFlags (compareFlags (s.readReg a) (s.readReg b)))
  /-- `ST` (R132). -/
  | store (a b : Fin 8) : Effect s (.st (regByte a) (regByte b)) (s.memWrite (s.readReg a) (s.readReg b))
  /-- `PUSH` (R110). -/
  | push (r : Fin 8) : Effect s (.push (regByte r)) (s.pushByte (s.decSp.readReg r))
  /-- `POP` (R111). -/
  | pop (r : Fin 8) : Effect s (.pop (regByte r)) (s.popTo r)
  /-- `CALL` (R112). -/
  | call (r : Fin 8) :
    Effect s (.call (regByte r)) ((s.pushByte (returnAddress s)).setPc (zext9 (s.decSp.readReg r)))
  /-- `RET` (R113). -/
  | ret : Effect s .ret (s.incSp.setPc (zext9 (s.memRead s.sp)))
  /-- `JMP` and the conditional jumps, taken or not (R120, R127). -/
  | jump {i : Instr} {p : PcWord} (hi : setsPc i = true) (hp : s.pc.toNat ≤ 253 → p.toNat ≤ 255) :
    Effect s i (s.setPc p)
  /-- `PRN` (R133). -/
  | printNumber (r : Fin 8) : Effect s (.prn (regByte r)) (s.emit .num (s.readReg r))
  /-- `PRA` (R134). -/
  | printCharacter (r : Fin 8) : Effect s (.pra (regByte r)) (s.emit .chr (s.readReg r))
  /-- `HLT` (R135). -/
  | halt : Effect s .hlt s.setHalted

/-- The answer `r` of instruction `i` in state `s` is a fault taken with its opcode byte, or its effect and the advance. -/
def Performs (i : Instr) (s : State) (r : Result) : Prop :=
  (∃ c, r = .next (s.takeFault c (some (opcodeOf i)))) ∨ ∃ u, Effect s i u ∧ r = finish (opcodeOf i) u

section OperandForms

variable {i : Instr} {ir o o1 o2 : Byte} {s : State} (hop : opcodeOf i = ir)
include hop

theorem withReg_performs {k : Fin 8 → Result} (hk : ∀ r, o = regByte r → Performs i s (k r)) :
    Performs i s (withReg ir o s k) := by
  rcases withReg_cases ir o s k with ⟨r, ho, e⟩ | ⟨-, e⟩ <;> rw [e]
  · exact hk r ho
  · exact .inl ⟨_, by rw [hop]⟩

theorem withRegs_performs {k : Fin 8 → Fin 8 → Result}
    (hk : ∀ a b, o1 = regByte a → o2 = regByte b → Performs i s (k a b)) : Performs i s (withRegs ir o1 o2 s k) :=
  withReg_performs hop fun a ha => withReg_performs hop fun b hb => hk a b ha hb

end OperandForms

theorem zext9_toNat_le (v : Byte) : (zext9 v).toNat ≤ 255 := by
  rw [zext9_toNat]
  exact Nat.le_of_lt_succ v.isLt

/-- A fetched `pc` has room for the longest instruction in 9 bits (R14, decision D5). -/
theorem pc_add_toNat {s : State} (hp : s.pc.toNat ≤ 253) {n : Nat} (hn : n ≤ 3) :
    (s.pc + BitVec.ofNat 9 n).toNat = s.pc.toNat + n := by
  rw [BitVec.toNat_add, BitVec.toNat_ofNat]
  omega

/-- Both targets of a jump are 8-bit addresses: a register's value, and `pc + 2` of a fetched instruction. -/
theorem jumpTarget_le {s : State} (taken : Bool) (v : Byte) (hp : s.pc.toNat ≤ 253) :
    (if taken then zext9 v else s.pc + 2#9).toNat ≤ 255 := by
  cases taken with
  | true => exact zext9_toNat_le v
  | false =>
    have : (s.pc + 2#9).toNat = s.pc.toNat + 2 := pc_add_toNat hp (by omega)
    simpa [this] using hp

/-- What an instruction can do: its own fault, or its effect and the advance. -/
theorem exec_performs (i : Instr) (s : State) : Performs i s (exec i s) := by
  cases i with
  | hlt => exact .inr ⟨_, .halt, rfl⟩
  | ret => exact .inr ⟨_, .ret, rfl⟩
  | push o => exact withReg_performs rfl fun r hr => hr ▸ .inr ⟨_, .push r, rfl⟩
  | pop o => exact withReg_performs rfl fun r hr => hr ▸ .inr ⟨_, .pop r, rfl⟩
  | prn o => exact withReg_performs rfl fun r hr => hr ▸ .inr ⟨_, .printNumber r, rfl⟩
  | pra o => exact withReg_performs rfl fun r hr => hr ▸ .inr ⟨_, .printCharacter r, rfl⟩
  | call o => exact withReg_performs rfl fun r hr => hr ▸ .inr ⟨_, .call r, rfl⟩
  | jmp o => exact withReg_performs rfl fun r _ => .inr ⟨_, .jump rfl fun _ => zext9_toNat_le _, rfl⟩
  | jeq o | jne o | jgt o | jlt o | jle o | jge o =>
    exact withReg_performs rfl fun r _ => .inr ⟨_, .jump rfl (jumpTarget_le _ _), rfl⟩
  | not o | ldi o v =>
    refine withReg_performs rfl ?_
    rintro r rfl
    exact .inr ⟨_, .writeReg _ (by simp [writableRegs, regidx_regByte]) rfl, rfl⟩
  | ld o1 o2 | add o1 o2 | mul o1 o2 | and o1 o2 | or o1 o2 | xor o1 o2 | shl o1 o2 | shr o1 o2 =>
    refine withRegs_performs rfl ?_
    rintro a b rfl rfl
    exact .inr ⟨_, .writeReg _ (by simp [writableRegs, regidx_regByte]) rfl, rfl⟩
  | mod o1 o2 =>
    refine withRegs_performs rfl ?_
    rintro a b rfl rfl
    split
    · exact .inl ⟨_, rfl⟩
    · exact .inr ⟨_, .writeReg _ (by simp [writableRegs, regidx_regByte]) rfl, rfl⟩
  | st o1 o2 =>
    refine withRegs_performs rfl ?_
    rintro a b rfl rfl
    exact .inr ⟨_, .store a b, rfl⟩
  | cmp o1 o2 =>
    refine withRegs_performs rfl ?_
    rintro a b rfl rfl
    exact .inr ⟨_, .compare a b, rfl⟩

/-- Every instruction answers a next state. -/
theorem exec_eq_next (i : Instr) (s : State) : ∃ t, exec i s = .next t := by
  rcases exec_performs i s with ⟨c, e⟩ | ⟨u, -, e⟩
  · exact ⟨_, e⟩
  · exact ⟨_, e⟩

theorem exec_next_cases {i : Instr} {s t : State} (ht : exec i s = .next t) :
    (∃ c, t = s.takeFault c (some (opcodeOf i))) ∨ ∃ u, Effect s i u ∧ t = u.advance (opcodeOf i) := by
  rcases exec_performs i s with ⟨c, e⟩ | ⟨u, hu, e⟩
  · cases ht.symm.trans e
    exact .inl ⟨c, rfl⟩
  · cases ht.symm.trans e
    exact .inr ⟨u, hu, rfl⟩

namespace Effect

variable {s u : State} {i : Instr}

/-- No handler that completes touches the fault record or the budget. -/
theorem fault_eq (h : Effect s i u) : u.fault = s.fault := by cases h <;> rfl

theorem budget_eq (h : Effect s i u) : u.budget = s.budget := by cases h <;> rfl

/-- Only `CMP` writes the flags (R15). -/
theorem flags_cases (h : Effect s i u) :
    u.flags = s.flags ∨
    ∃ a b, i = .cmp (regByte a) (regByte b) ∧ u.flags = compareFlags (s.readReg a) (s.readReg b) := by
  cases h with
  | compare a b => exact .inr ⟨a, b, rfl, rfl⟩
  | _ => exact .inl rfl

/-- Only `PRN` and `PRA` append to the output (R21). -/
theorem out_cases (h : Effect s i u) :
    u.out = s.out ∨
    ∃ r, (i = .prn (regByte r) ∧ u.out = s.out ++ [⟨.num, s.readReg r⟩]) ∨
      (i = .pra (regByte r) ∧ u.out = s.out ++ [⟨.chr, s.readReg r⟩]) := by
  cases h with
  | printNumber r => exact .inr ⟨r, .inl ⟨rfl, rfl⟩⟩
  | printCharacter r => exact .inr ⟨r, .inr ⟨rfl, rfl⟩⟩
  | _ => exact .inl rfl

/-- A handler writes no memory, or one byte: `PUSH` and `CALL` at the decremented `sp`, `ST` at `x[r]` (R30). -/
theorem mem_cases (h : Effect s i u) :
    u.mem = s.mem ∨
    ∃ addr v, u.mem = Memory.write s.mem addr.toNat v ∧
      ((∃ r, (i = .push r ∨ i = .call r) ∧ addr = s.decSp.sp) ∨
       ∃ r r2 a, i = .st r r2 ∧ regidx r = some a ∧ addr = s.readReg a) := by
  cases h with
  | store a b => exact .inr ⟨_, _, rfl, .inr ⟨_, _, a, rfl, regidx_regByte a, rfl⟩⟩
  | push r => exact .inr ⟨_, _, rfl, .inl ⟨_, .inl rfl, rfl⟩⟩
  | call r => exact .inr ⟨_, _, rfl, .inl ⟨_, .inr rfl, rfl⟩⟩
  | _ => exact .inl rfl

/-- A handler keeps the registers that the table of R12 does not list. -/
theorem regsKeptExcept (h : Effect s i u) : RegsKeptExcept (writableRegs i) s u := by
  intro j hj
  cases h with
  | writeReg v ha hi => rw [writeReg_readReg, if_neg (ne_of_mem_of_not_mem ha hj).symm]
  | push r => rw [pushByte_readReg, decSp_readReg, if_neg (List.mem_singleton.not.1 hj)]
  | call r => rw [setPc_readReg, pushByte_readReg, decSp_readReg, if_neg (List.mem_singleton.not.1 hj)]
  | ret => rw [setPc_readReg, incSp_readReg, if_neg (List.mem_singleton.not.1 hj)]
  | pop r =>
    obtain ⟨hjr, hj7⟩ : j ≠ r ∧ j ≠ 7 := by simpa [writableRegs, regidx_regByte] using hj
    rw [State.popTo, incSp_readReg, if_neg hj7, writeReg_readReg, if_neg hjr]
  | _ => rfl

/-- A handler writes `pc` only when the instruction sets it, and then to an 8-bit address (R75). -/
theorem pc_cases (h : Effect s i u) :
    (setsPc i = false ∧ u.pc = s.pc) ∨ (setsPc i = true ∧ (s.pc.toNat ≤ 253 → u.pc.toNat ≤ 255)) := by
  cases h with
  | call r => exact .inr ⟨rfl, fun _ => zext9_toNat_le _⟩
  | ret => exact .inr ⟨rfl, fun _ => zext9_toNat_le _⟩
  | jump hi hp => exact .inr ⟨hi, hp⟩
  | writeReg v ha hi => exact .inl ⟨hi, rfl⟩
  | _ => exact .inl ⟨rfl, rfl⟩

end Effect

/-- What a step with a next state did: one fault and nothing else, or the effect of the instruction at `pc`, the advance
and the count of the cycle. -/
theorem step_effect_cases {s t : State} (ht : step s = .next t) :
    (∃ c b, t = s.takeFault c b) ∨
    (CanFetch s ∧ ∃ i u, decodeAtPc s = .ok i ∧ opcodeOf i = opcodeByte s ∧ Effect s i u ∧
      t = (u.advance (opcodeOf i)).countCycle) := by
  rcases step_next_cases ht with ⟨c, b, rfl, -⟩ | ⟨hs, i, v, hd, hexec, rfl⟩
  · exact .inl ⟨c, b, rfl⟩
  · rcases exec_next_cases hexec with ⟨c, rfl⟩ | ⟨u, hu, rfl⟩
    · exact .inl ⟨c, _, countCycle_of_fault _ nofun⟩
    · exact .inr ⟨hs, i, u, hd, opcodeOf_of_decode_eq_ok hd, hu, rfl⟩

end Sys2Proof.Machine
end

section
/-! PROOFS. The frames of the instructions and of the step (10_state.md, 20_memory.md section 1): O45 to O49. -/

namespace Sys2Proof.Machine

/-- `CMP` leaves exactly one flag set (R100). -/
theorem compareFlags_oneHot (x y : Byte) :
    compareFlags x y = ⟨true, false, false⟩ ∨ compareFlags x y = ⟨false, true, false⟩ ∨
      compareFlags x y = ⟨false, false, true⟩ := by
  rw [compareFlags]
  split
  · exact .inl rfl
  · split
    · exact .inr (.inl rfl)
    · exact .inr (.inr rfl)

/-- A step that changes the flags ran a `CMP` on two registers. -/
theorem step_flags_cases {s t : State} (ht : step s = .next t) :
    t.flags = s.flags ∨
    ∃ a b, decodeAtPc s = .ok (.cmp (regByte a) (regByte b)) ∧
      t.flags = compareFlags (s.readReg a) (s.readReg b) := by
  rcases step_effect_cases ht with ⟨c, b, rfl⟩ | ⟨-, i, u, hd, -, hu, rfl⟩
  · exact .inl rfl
  · simp only [countCycle_flags, advance_flags]
    rcases hu.flags_cases with h | ⟨a, b, rfl, h⟩
    · exact .inl h
    · exact .inr ⟨a, b, hd, h⟩

/-- The instructions whose meaning depends on the flags: the conditional jumps (R121 to R126). -/
def ReadsFlags (i : Instr) : Prop :=
  ∃ r, i = .jeq r ∨ i = .jne r ∨ i = .jgt r ∨ i = .jlt r ∨ i = .jle r ∨ i = .jge r

/-- An instruction that neither reads nor writes the flags carries them along. -/
theorem exec_setFlags {i : Instr} (hi : ¬ReadsFlags i) (hcmp : ∀ a b, i ≠ .cmp a b) (f : Flags) (s : State) :
    exec i (s.setFlags f) = mapNext (State.setFlags · f) (exec i s) := by
  have hf : ∀ c b, (s.setFlags f).takeFault c b = (s.takeFault c b).setFlags f := fun _ _ => rfl
  cases i with
  | hlt | ret => rfl
  | cmp a b => exact absurd rfl (hcmp a b)
  | jeq r | jne r | jgt r | jlt r | jle r | jge r => exact absurd ⟨r, by simp⟩ hi
  | push r | pop r | prn r | pra r | call r | jmp r | not r | ldi r v =>
    exact withReg_mapNext (f := (State.setFlags · f)) hf fun _ => rfl
  | ld a b | st a b | add a b | mul a b | and a b | or a b | xor a b | shl a b | shr a b =>
    exact withRegs_mapNext (f := (State.setFlags · f)) hf fun _ _ => rfl
  | mod a b =>
    refine withRegs_mapNext (f := (State.setFlags · f)) hf fun a b => ?_
    rw [apply_ite (mapNext _)]
    rfl

/-- `CMP` overwrites the flags without reading them. -/
theorem exec_cmp_ignores_flags {o1 o2 : Byte} {s t : State} (f : Flags) (ht : exec (.cmp o1 o2) s = .next t) :
    ∃ u, exec (.cmp o1 o2) (s.setFlags f) = .next u ∧ u.setFlags t.flags = t := by
  rcases withRegs_cases Opcode.cmp o1 o2 s _ with ⟨a, b, rfl, rfl, -⟩ | ⟨hhigh, e⟩
  · cases ht.symm.trans (exec_cmp_regByte a b s)
    exact ⟨_, exec_cmp_regByte a b _, rfl⟩
  · cases ht.symm.trans e
    exact ⟨_, withRegs_high _ _ _ _ _ hhigh, rfl⟩

/-- From a state that differs in the flags only, an instruction other than a conditional jump answers one that differs in
the flags only. -/
theorem exec_ignores_flags {i : Instr} {s t : State} (f : Flags) (hi : ¬ReadsFlags i) (ht : exec i s = .next t) :
    ∃ u, exec i (s.setFlags f) = .next u ∧ u.setFlags t.flags = t := by
  by_cases hcmp : ∃ a b, i = .cmp a b
  · obtain ⟨a, b, rfl⟩ := hcmp
    exact exec_cmp_ignores_flags f ht
  · exact ⟨t.setFlags f, by rw [exec_setFlags hi (fun a b h => hcmp ⟨a, b, h⟩), ht]; rfl, rfl⟩

/-- Settles O45: `CMP` is the only handler that writes the flags, and every instruction but it and the conditional jumps
commutes with setting them. -/
theorem flagsOnlyFromCmp : Obligations.FlagsOnlyFromCmp := by
  refine ⟨fun s t ht hne => ?_, fun i s t f hi ht => exec_ignores_flags f ?_ ht⟩
  · obtain ⟨a, b, hd, hflags⟩ := (step_flags_cases ht).resolve_left hne
    exact ⟨⟨a, b, hd⟩, by rw [hflags]; exact compareFlags_oneHot ..⟩
  · rintro ⟨r, h⟩
    simp [hi r] at h

/-- Settles O46: the one handler that writes memory writes one byte, so a cell that changed is that byte's. -/
theorem memoryOnlyFromPushCallStore : Obligations.MemoryOnlyFromPushCallStore := by
  intro i s t n ht hne
  rcases exec_next_cases ht with ⟨c, rfl⟩ | ⟨u, hu, rfl⟩
  · exact absurd rfl hne
  · rw [advance_cell, State.cell, State.cell] at hne
    rcases hu.mem_cases with h | ⟨addr, v, h, haddr⟩ <;> rw [h] at hne
    · exact absurd rfl hne
    · have hn : n = addr.toNat := by
        by_contra hn
        exact hne (by rw [read_write, if_neg hn])
      rcases haddr with ⟨r, hi, rfl⟩ | ⟨r, r2, a, hi, hr, rfl⟩
      · exact .inl ⟨r, hi, hn⟩
      · exact .inr ⟨r, r2, a, hi, hr, hn⟩

/-- Settles O47: a fault writes no register, and the advance none after the handler. -/
theorem registersOnlyByTable : Obligations.RegistersOnlyByTable := by
  intro i s t ht j hj
  rcases exec_next_cases ht with ⟨c, rfl⟩ | ⟨u, hu, rfl⟩
  · rfl
  · rw [advance_readReg]
    exact hu.regsKeptExcept j hj

/-- Settles O48: a faulting step appends no event, and the only handlers that do are `PRN`'s and `PRA`'s. -/
theorem outputOnlyFromPrint : Obligations.OutputOnlyFromPrint := by
  intro s t ht
  rcases step_effect_cases ht with ⟨c, b, rfl⟩ | ⟨-, i, u, hd, -, hu, rfl⟩
  · exact .inl rfl
  · simp only [countCycle_out, advance_out]
    rcases hu.out_cases with h | ⟨r, ⟨rfl, h⟩ | ⟨rfl, h⟩⟩
    · exact .inl h
    · exact .inr ⟨r, .inl ⟨hd, h⟩⟩
    · exact .inr ⟨r, .inr ⟨hd, h⟩⟩

/-- What the handler and the advance leave in `pc` of a fetched instruction: the address after it, or what the handler
put there (R75). -/
theorem Effect.advance_pc {s u : State} {i : Instr} (hu : Effect s i u) (hp : s.pc.toNat ≤ 253) :
    (setsPcBit (opcodeOf i) = false ∧
      (u.advance (opcodeOf i)).pc.toNat = s.pc.toNat + (operandCount (opcodeOf i) + 1)) ∨
    (setsPcBit (opcodeOf i) = true ∧ (u.advance (opcodeOf i)).pc.toNat ≤ 255) := by
  rcases hu.pc_cases with ⟨hi, hpc⟩ | ⟨hi, hpc⟩ <;> rw [← setsPcBit_opcodeOf] at hi
  · have hlen : operandCount (opcodeOf i) + 1 ≤ 3 := (encode_length i).symm.trans_le (encode_length_le i)
    exact .inl ⟨hi, by rw [advance_pc_of_not_setsPc _ _ hi, hpc, pc_add_toNat hp hlen]⟩
  · exact .inr ⟨hi, by rw [advance_pc_of_setsPc _ _ hi]; exact hpc hp⟩

/-- A fetched instruction has at most three bytes, so `pc` ends at 256 at most (R14, decision D5). -/
theorem Effect.advance_pc_le {s u : State} {i : Instr} (hu : Effect s i u) (hp : s.pc.toNat ≤ 253) :
    (u.advance (opcodeOf i)).pc.toNat ≤ 256 := by
  have hlen := encode_length_le i
  rw [encode_length] at hlen
  rcases hu.advance_pc hp with ⟨-, h⟩ | ⟨-, h⟩ <;> omega

/-- Settles O49: a completed cycle is the effect and the advance, and the count of the cycle leaves `pc` alone. -/
theorem programCounterAdvance : Obligations.ProgramCounterAdvance := by
  intro s t ht hf
  rcases step_effect_cases ht with ⟨c, b, rfl⟩ | ⟨⟨-, -, hp⟩, i, u, -, hop, hu, rfl⟩
  · cases hf
  · have hle := hu.advance_pc_le hp
    have hpc := hu.advance_pc hp
    rw [operandCount_eq, hop] at hpc
    rw [countCycle_pc, hop]
    rw [hop] at hle
    rcases hpc with ⟨hbit, h⟩ | ⟨hbit, h⟩
    · exact ⟨fun _ => ⟨h, hle⟩, fun hset => nomatch hbit.symm.trans hset⟩
    · exact ⟨fun hset => (nomatch hbit.symm.trans hset), fun _ => h⟩

end Sys2Proof.Machine
end

section
/-! PROOFS. The invariant (R14, R15, R17, R18, R30) at reset and along every step: O52, O53. -/

namespace Sys2Proof.Machine

theorem compareFlags_legal (x y : Byte) : FlagsLegal (compareFlags x y) := by
  rcases compareFlags_oneHot x y with h | h | h <;> rw [h] <;> simp [FlagsLegal]

/-- A byte address is below the end of memory, so a handler keeps the canonical form (R30). -/
theorem Effect.mem_wf {s u : State} {i : Instr} (hu : Effect s i u) (h : Memory.wf s.mem) : Memory.wf u.mem := by
  rcases hu.mem_cases with hmem | ⟨addr, v, hmem, -⟩ <;> rw [hmem]
  · exact h
  · exact write_wf _ _ _ addr.isLt h

theorem Effect.flags_legal {s u : State} {i : Instr} (hu : Effect s i u) (h : FlagsLegal s.flags) :
    FlagsLegal u.flags := by
  rcases hu.flags_cases with hf | ⟨a, b, -, hf⟩ <;> rw [hf]
  · exact h
  · exact compareFlags_legal ..

/-- The byte of a fault is absent only for the budget, or where no cell exists at `pc` (R140, R141, R153). -/
theorem step_fault_byte_eq_none {s : State} {c : FaultCause} {b : Option Byte} (ht : step s = .next (s.takeFault c b))
    (hp : s.pc.toNat ≤ 256) (hb : b = none) : c = .budget ∨ s.pc = 256#9 := by
  obtain ⟨c', b', e, hcase⟩ := step_fault_cases ht nofun
  obtain ⟨rfl, rfl⟩ : c = c' ∧ b = b' := by simpa [State.takeFault] using congrArg State.fault e
  subst hb
  rcases hcase with ⟨h, -⟩ | ⟨-, h, -⟩ | ⟨-, h, -⟩ | ⟨-, h⟩
  · exact .inl h
  · by_cases hle : s.pc.toNat ≤ 255
    · exact nomatch h.trans (fetchFaultByte_of_le hle)
    · exact .inr (BitVec.eq_of_toNat_eq (show s.pc.toNat = 256 by omega))
  · cases h
  · cases h

/-- Settles O52: a fault adds its record to a state that keeps everything else, and a completed cycle records none. -/
theorem invariantKeptByEveryStep : Obligations.InvariantKeptByEveryStep := by
  intro s t hinv ht
  obtain ⟨hfault, hhalted⟩ := step_next_running ht
  rcases step_effect_cases ht with ⟨c, b, rfl⟩ | ⟨⟨-, -, hp⟩, i, u, -, -, hu, rfl⟩
  · refine ⟨hinv.memWf, hinv.pcRange, hinv.flagsLegal, fun h => ?_, fun r hr => ?_, fun r hr hb => ?_⟩
    · exact nomatch hhalted.symm.trans h
    · cases hr; rfl
    · cases hr
      exact step_fault_byte_eq_none ht hinv.pcRange hb
  · have hnone : (u.advance (opcodeOf i)).countCycle.fault = none := by
      rw [countCycle_fault, advance_fault, hu.fault_eq, hfault]
    refine ⟨?_, ?_, ?_, fun _ => hnone, fun r hr => ?_, fun r hr => ?_⟩
    · rw [countCycle_mem, advance_mem]
      exact hu.mem_wf hinv.memWf
    · rw [countCycle_pc]
      exact hu.advance_pc_le hp
    · rw [countCycle_flags, advance_flags]
      exact hu.flags_legal hinv.flagsLegal
    · exact nomatch hnone.symm.trans hr
    · exact nomatch hnone.symm.trans hr

/-- Reset with any memory in canonical form meets the invariant: what a load makes (R171). -/
theorem inv_reset_with_mem {m : Memory} (hm : Memory.wf m) : Inv { State.reset with mem := m } :=
  ⟨hm, Nat.zero_le _, .inr (.inr (.inr ⟨rfl, rfl, rfl⟩)), nofun, nofun, nofun⟩

/-- Settles O53: reset memory lists no cell, and no fault is recorded. -/
theorem invariantHoldsAtReset : Obligations.InvariantHoldsAtReset := inv_reset_with_mem reset_mem_wf

end Sys2Proof.Machine
end

section
/-! PROOFS. `PRN` and `PRA` (R133, R134): O5, O6. -/

namespace Sys2Proof.Machine

/-- A print instruction: its encoding, its event and frame for a register operand, and its index fault. -/
theorem print_meets {i : Byte → Instr} {op : Byte} (kind : EventKind) (hencode : ∀ o, encode (i o) = [op, o])
    (hexec : ∀ o s, exec (i o) s = withReg op o s fun r => finish op (s.emit kind (s.readReg r)))
    (hfinish : ∀ s, finish op s = .next (s.setPc (s.pc + 2#9))) :
    (∀ o, encode (i o) = [op, o]) ∧
    (∀ (s : State) (r : Fin 8), ∃ t, exec (i (regByte r)) s = .next t ∧
      t.out = s.out ++ [⟨kind, s.readReg r⟩] ∧ RegsKeptExcept [] s t ∧ FlagsKept s t ∧ MemKept s t ∧ ControlKept s t ∧
      t.pc = s.pc + 2#9) ∧
    (∀ (s : State) (o : Byte), 7 < o.toNat →
      exec (i o) s = .next { s with fault := some ⟨.registerIndex, s.pc, some op⟩ }) :=
  ⟨hencode, fun _ _ => ⟨_, (hexec ..).trans ((withReg_regByte ..).trans (hfinish _)), rfl, fun _ _ => rfl, rfl,
    fun _ => rfl, ⟨rfl, rfl, rfl⟩, rfl⟩, fun _ _ h => (hexec ..).trans (withReg_high _ _ _ _ h)⟩

/-- Settles O5: PRN is the print of kind NUM. -/
theorem printNumberEmitsEvent : Obligations.PrintNumberEmitsEvent :=
  print_meets .num (fun _ => rfl) (fun _ _ => rfl) finish_prn

/-- Settles O6: PRA is the print of kind CHR. -/
theorem printCharacterEmitsEvent : Obligations.PrintCharacterEmitsEvent :=
  print_meets .chr (fun _ => rfl) (fun _ _ => rfl) finish_pra

end Sys2Proof.Machine
end

section
/-! PROOFS. The step and the budget (40_engine_cycle.md, R153, R176): O33, O43, O50, O51. -/

namespace Sys2Proof.Machine

/-- A cycle of a running engine has a next state. -/
theorem step_eq_next_of_running {s : State} (hs : s.runState = .running) : ∃ t, step s = .next t := by
  rw [step_of_running hs]
  rcases cycle_cases s with ⟨-, e⟩ | ⟨-, -, e⟩ | ⟨-, -, _, -, e⟩ | ⟨-, -, i, -, e⟩
  · exact ⟨_, e⟩
  · exact ⟨_, e⟩
  · exact ⟨_, e⟩
  · obtain ⟨t, ht⟩ := exec_eq_next i s
    exact ⟨t.countCycle, by rw [e, ht]; rfl⟩

/-- Settles O43: a running engine's cycle has a next state, and a terminal state stops with a fault, not a refusal. -/
theorem runningEngineAlwaysSteps : Obligations.RunningEngineAlwaysSteps := by
  intro s
  by_cases hs : s.runState = .running
  · obtain ⟨t, ht⟩ := step_eq_next_of_running hs
    exact ⟨⟨fun _ => hs, fun _ => ⟨t, ht⟩⟩, fun r hr => nomatch ht.symm.trans hr⟩
  · obtain ⟨f, hf⟩ := step_of_not_running hs
    exact ⟨⟨fun ⟨t, ht⟩ => (nomatch hf.symm.trans ht), fun h => absurd h hs⟩, fun r hr => nomatch hf.symm.trans hr⟩

/-- No instruction reads or writes the budget. -/
theorem exec_budget {i : Instr} {s t : State} (ht : exec i s = .next t) : t.budget = s.budget := by
  rcases exec_next_cases ht with ⟨c, rfl⟩ | ⟨u, hu, rfl⟩
  · rfl
  · rw [advance_budget, hu.budget_eq]

/-- Settles O33: a cycle that can fetch runs the decoded instruction, and its count leaves an unlimited budget alone. -/
theorem stepRunsDecodedInstruction : Obligations.StepRunsDecodedInstruction := by
  intro s i hs hd
  have hstep := step_of_decodeAtPc hs hd
  refine ⟨hstep, fun hb => ?_⟩
  obtain ⟨t, ht⟩ := exec_eq_next i s
  rw [hstep, ht, afterExec, countCycle_of_unlimited t ((exec_budget ht).trans hb)]

/-- With the budget used up the engine faults before fetch (R153). -/
theorem step_of_budget_zero {s : State} (hs : s.runState = .running) (hb : s.budget = some 0) :
    step s = .next (s.takeFault .budget none) := by
  rw [step_of_running hs, cycle, if_pos hb, raiseFault]

/-- A faulting step keeps the budget, a completed one takes one from it (R153). -/
theorem step_budget {s t : State} (ht : step s = .next t) :
    t.budget = if t.fault = none then s.budget.map (· - 1) else s.budget := by
  have hs : s.fault = none := (step_next_running ht).1
  rcases step_effect_cases ht with ⟨c, b, rfl⟩ | ⟨-, i, u, -, -, hu, rfl⟩
  · rfl
  · have hnone : (u.advance (opcodeOf i)).fault = none := by rw [advance_fault, hu.fault_eq, hs]
    rw [countCycle_fault, if_pos hnone, countCycle_of_completed _ hnone]
    simp only [advance_budget, hu.budget_eq]

/-- Settles O50: the count of the cycle is the only thing that moves the budget, and the cycle checks it first. -/
theorem budgetCountsCompletedCycles : Obligations.BudgetCountsCompletedCycles := by
  intro s t ht
  refine ⟨fun hb => ?_, fun k hb => ?_, fun hb => ?_⟩
  · rw [step_budget ht, hb, Option.map_none, ite_self]
  · rw [step_budget ht, hb]
    rfl
  · cases ht.symm.trans (step_of_budget_zero ((runState_running s).2 (step_next_running ht)) hb)
    rfl

theorem run_succ_of_step {s t : State} (h : step s = .next t) (k : Nat) : run (k + 1) s = run k t := by
  rw [run, h]

theorem run_of_not_running {s : State} (hs : s.runState ≠ .running) (k : Nat) : run k s = s := by
  obtain ⟨f, hf⟩ := step_of_not_running hs
  exact run_of_step_fault hf k

theorem runState_of_fault {s : State} (hs : s.fault ≠ none) : s.runState ≠ .running := fun h =>
  hs ((runState_running s).1 h).1

/-- What the budget of `k` gives a run from `s` (R153). -/
def BudgetBounds (k : Nat) (s : State) : Prop :=
  (run (k + 1) s).runState ≠ .running ∧
  ((run k s).runState = .running → FaultEntered .budget none (run k s) (run (k + 1) s))

/-- A state that has left Running is within every bound: the run stays in it. -/
theorem budgetBounds_of_not_running {s : State} (hs : s.runState ≠ .running) (k : Nat) : BudgetBounds k s := by
  rw [BudgetBounds, run_of_not_running hs, run_of_not_running hs]
  exact ⟨hs, fun h => absurd h hs⟩

theorem BudgetBounds.of_step {k : Nat} {s t : State} (ht : step s = .next t) (h : BudgetBounds k t) :
    BudgetBounds (k + 1) s := by
  rw [BudgetBounds, run_succ_of_step ht, run_succ_of_step ht]
  exact h

/-- The bound, by induction on the budget: a running state with none left faults, and with one more it faults or steps to a
state with one less. -/
theorem budgetBounds_of_budget {k : Nat} {s : State} (hb : s.budget = some k) : BudgetBounds k s := by
  induction k generalizing s with
  | zero =>
    by_cases hs : s.runState = .running
    · rw [BudgetBounds, run_succ_of_step (step_of_budget_zero hs hb)]
      exact ⟨runState_of_fault nofun, fun _ => rfl⟩
    · exact budgetBounds_of_not_running hs 0
  | succ k ih =>
    by_cases hs : s.runState = .running
    · obtain ⟨t, ht⟩ := step_eq_next_of_running hs
      refine .of_step ht ?_
      by_cases hf : t.fault = none
      · exact ih (by rw [step_budget ht, if_pos hf, hb]; rfl)
      · exact budgetBounds_of_not_running (runState_of_fault hf) k
    · exact budgetBounds_of_not_running hs _

/-- Settles O51: induction on the budget. -/
theorem budgetBoundsEveryRun : Obligations.BudgetBoundsEveryRun := fun _ _ => budgetBounds_of_budget

end Sys2Proof.Machine
end

section
/-! PROOFS. The stack round trips (R111, R112, R113): O57, O58. -/

namespace Sys2Proof.Machine

/-- The increment undoes the decrement, modulo 256 (R114, decision D6). -/
theorem incSp_sp_of_sp_eq {s w : State} (h : w.sp = s.decSp.sp) : w.incSp.sp = s.sp := by
  rw [incSp_sp, h, decSp_sp, sub_add_cancel]

theorem memRead_pushByte_setPc (s : State) (v : Byte) (p : PcWord) :
    ((s.pushByte v).setPc p).memRead ((s.pushByte v).setPc p).sp = v := by
  rw [State.memRead, State.sp, pushByte_setPc_readReg_sp, setPc_cell, pushByte_cell_sp]

/-- Settles O57: the pop reads the pushed byte at the `sp` that the push left, and its increment undoes the decrement. -/
theorem pushThenPopRoundTrip : Obligations.PushThenPopRoundTrip := by
  intro s r r2 hr hr2
  refine ⟨_, _, exec_push_regByte r s, exec_pop_regByte r2 _, ?_, incSp_sp_of_sp_eq ?_⟩
  · rw [setPc_readReg, popTo_readReg_self _ hr2, memRead_pushByte_setPc, decSp_readReg_eq_ite, if_neg hr]
  · rw [State.sp, writeReg_readReg, if_neg hr2.symm, pushByte_setPc_readReg_sp]

/-- Settles O58: the return reads the return address at the `sp` that the call left, and its increment undoes the
decrement. -/
theorem callThenReturnRoundTrip : Obligations.CallThenReturnRoundTrip := by
  intro s r hpc
  refine ⟨_, exec_call_regByte r s, fun w hsp hcell => ⟨_, exec_ret w, ?_, incSp_sp_of_sp_eq hsp⟩⟩
  rw [pushByte_setPc_readReg_sp] at hsp hcell
  rw [setPc_cell, pushByte_cell_sp] at hcell
  rw [setPc_pc, zext9_toNat, State.memRead, State.sp, hsp, hcell, returnAddress_toNat hpc]

end Sys2Proof.Machine
end

section
/-! PROOFS. Stores seen by the next fetch (R41), the placed word, the load, the rest of reset and the snapshot (R171, R24,
R156): O34, O54, O56, O59, O60. -/

namespace Sys2Proof.Machine

/-- Settles O59: the handler has its operands before the store, and the next fetch reads the memory the store left. -/
theorem storeIsSeenByNextFetch : Obligations.StoreIsSeenByNextFetch := by
  intro s r r2 hs hir hop1 hop2
  have ⟨_, _, hp⟩ := hs
  have hd : decodeAtPc s = .ok (.st (regByte r) (regByte r2)) := by
    rw [decodeAtPc, hir, hop1, hop2]; rfl
  have hpc : (s.pc + 3#9).toNat = s.pc.toNat + 3 := pc_add_toNat hp le_rfl
  refine ⟨_, by rw [step_of_decodeAtPc hs hd, exec_st_regByte]; rfl, ?_, fun n => ?_, fun hle => ?_⟩
  · rw [countCycle_pc, setPc_pc, hpc]
  · rw [countCycle_cell, setPc_cell, memWrite_cell]
  · rw [fetch_eq_some] <;> rw [countCycle_pc, setPc_pc, hpc]
    exact hle

/-- Bytes placed at `pc` that end within memory are in the cells from `pc` up, and no other cell differs. -/
theorem placeAtPc_cell (s : State) (bs : List Byte) (h : s.pc.toNat + bs.length ≤ 256) (n : Nat) :
    (placeAtPc s bs).cell n =
      if hn : s.pc.toNat ≤ n ∧ n < s.pc.toNat + bs.length then bs[n - s.pc.toNat]'(by omega) else s.cell n := by
  have hall : bs.take (Config.memSize - s.pc.toNat) = bs := List.take_of_length_le (by rw [Config.memSize]; omega)
  rw [State.cell, placeAtPc, hall]
  exact read_writeBytes ..

theorem decode_of_decodeTableWord {nbits w : Nat} {i : Instr} (h : decodeTableWord nbits w = some i) :
    decode (tableByte nbits w 0) (tableByte nbits w 1) (tableByte nbits w 2) = .ok i := by
  rw [decodeTableWord] at h
  split at h
  · next j hj => cases h; exact hj
  · cases h

/-- The cycle fetches a placed word. -/
theorem decodeAtPc_withFetchWord {s : State} (hp : s.pc.toNat ≤ 253) (nbits w : Nat) :
    decodeAtPc (s.withFetchWord nbits w) =
      decode (tableByte nbits w 0) (tableByte nbits w 1) (tableByte nbits w 2) := by
  have hcell := placeAtPc_cell s [tableByte nbits w 0, tableByte nbits w 1, tableByte nbits w 2]
    (by simp only [List.length_cons, List.length_nil]; omega)
  have hpc : (s.withFetchWord nbits w).pc = s.pc := rfl
  rw [decodeAtPc, hpc, State.withFetchWord, hcell, hcell, hcell]
  simp

/-- Settles O34: the placed bytes are what the fetch reads, and placing writes memory only. -/
theorem placedWordRuns : Obligations.PlacedWordRuns := by
  intro s nbits w i hs hw
  have ⟨_, _, hp⟩ := hs
  refine ⟨step_of_decodeAtPc hs ?_, rfl, fun n hn => ?_⟩
  · rw [decodeAtPc_withFetchWord hp, decode_of_decodeTableWord hw]
  · rw [State.withFetchWord, placeAtPc_cell _ _ (by simp only [List.length_cons, List.length_nil]; omega), dif_neg]
    simp only [List.length_cons, List.length_nil]
    omega

theorem reset_cell (n : Nat) : State.reset.cell n = 0#8 := rfl

/-- Settles O54: the load is a run of writes from cell 0 into reset memory. -/
theorem loadPlacesImage : Obligations.LoadPlacesImage := by
  intro image
  refine ⟨fun hlen => ⟨{ State.reset with mem := Memory.writeBytes State.reset.mem 0 image }, if_neg hlen.not_gt,
    inv_reset_with_mem (writeBytes_wf _ _ _ (by omega) reset_mem_wf), rfl, fun n hn => ?_, fun n hn => ?_⟩,
    fun hlen => if_pos hlen⟩
  · rw [State.cell, read_writeBytes, dif_pos (by omega)]
    rfl
  · rw [State.cell, read_writeBytes, dif_neg (by omega)]
    exact reset_cell n

/-- Settles O56: the reset state's fields are the parameters' defaults, and its memory lists no cell. -/
theorem resetRegistersFlagsMemory : Obligations.ResetRegistersFlagsMemory :=
  ⟨by decide, rfl, rfl, rfl, rfl, reset_cell⟩

theorem cellIfExists_eq (s : State) (n : Nat) :
    cellIfExists s n = if n ≤ 255 then some (s.cell n) else none := by
  simp only [cellIfExists, Config.memSize, Nat.lt_succ_iff]

theorem cellIfExists_of_le {s : State} {n : Nat} (h : n ≤ 255) : cellIfExists s n = some (s.cell n) := by
  rw [cellIfExists_eq, if_pos h]

/-- Settles O60: each shown byte is a cell or absent, and where a cycle can fetch the three cells exist. -/
theorem snapshotShowsFetchedBytes : Obligations.SnapshotShowsFetchedBytes := by
  refine fun s => ⟨rfl, rfl, rfl, cellIfExists_eq .., cellIfExists_eq .., cellIfExists_eq .., fun l hl => ?_⟩
  have hp : s.pc.toNat ≤ 253 := by
    by_contra h
    exact nomatch hl.symm.trans ((fetch_eq_none s).2 (by omega))
  cases hl.symm.trans (fetch_eq_some s hp)
  exact ⟨cellIfExists_of_le (by omega), cellIfExists_of_le (by omega), cellIfExists_of_le (by omega)⟩

end Sys2Proof.Machine
end
